-- ==== Sys2Proof/Word.lean ====
section
/-! DEFINITION. The bit-vector types of the block (00_scope.md R5, R6; 10_state.md R15, R28, R29). -/

namespace Sys2Proof

/-- A register as the host bus sees it: 32 bits (R5, R15). -/
abbrev Word := BitVec 32

/-- One byte lane of the host bus (R40). -/
abbrev Byte := BitVec 8

/-- The value of one analog input port: 17 bits, legal values 0 to 0x10000 (R5, R28). -/
abbrev Sample := BitVec 17

/-- One bit per button, bit `b` for button `b` (LATCH[4:0], LEVEL[4:0], BTN_IN[4:0], PU_EN[4:0]). -/
abbrev Lines := BitVec 5

end Sys2Proof
end

