-- ==== Sys2Proof/Syntax.lean ====
section
/-! DEFINITION. The commands of 30_encoding.md: the five buttons (R53), the twenty legal command words of R52 and R56
(one constructor of `Instr` each, as spec/opcode_table.json lists them), and what a command word can be (R57). -/

namespace Sys2Proof

/-- The buttons, in the order of R53. -/
inductive Button where
  | btnA
  | btnB
  | btnX
  | btnY
  | btnStart
deriving DecidableEq, Repr

/-- The twenty legal command words of R52, one constructor for each row of the opcode table. The only operand field,
BTN, is part of the row (R59), so no constructor takes an argument. -/
inductive Instr where
  /-- `NOP`, word 0x00000000 (R102). -/
  | nop
  /-- `INIT`, word 0x00000010 (R103). -/
  | init
  /-- `RAW`, word 0x00000020 (R79). -/
  | raw
  /-- `MAPPED`, word 0x00000030 (R80). -/
  | mapped
  /-- `POLAR`, word 0x00000040 (R81). -/
  | polar
  /-- `MAG`, word 0x00000050 (R82). -/
  | mag
  /-- `ANGLE`, word 0x00000060 (R83). -/
  | angle
  /-- `DIR`, word 0x00000070 (R84). -/
  | dir
  /-- `PRESSED A`, word 0x00000080 (R95). -/
  | pressedA
  /-- `PRESSED B`, word 0x00000081 (R95). -/
  | pressedB
  /-- `PRESSED X`, word 0x00000082 (R95). -/
  | pressedX
  /-- `PRESSED Y`, word 0x00000083 (R95). -/
  | pressedY
  /-- `PRESSED START`, word 0x00000084 (R95). -/
  | pressedStart
  /-- `HELD A`, word 0x00000090 (R96). -/
  | heldA
  /-- `HELD B`, word 0x00000091 (R96). -/
  | heldB
  /-- `HELD X`, word 0x00000092 (R96). -/
  | heldX
  /-- `HELD Y`, word 0x00000093 (R96). -/
  | heldY
  /-- `HELD START`, word 0x00000094 (R96). -/
  | heldStart
  /-- `RESETALL`, word 0x000000A0 (R97). -/
  | resetall
  /-- `CLRERR`, word 0x000000B0 (R106). -/
  | clrerr
deriving DecidableEq, Repr

/-- Why a command word is illegal, one name for each rule that makes it so. -/
inductive Illegal where
  /-- A bit of RSV (31:8) or bit 3 is set (R54). -/
  | reservedBits
  /-- OP is 0xC to 0xF (R56). -/
  | reservedOp
  /-- OP takes no button and BTN is not zero (R55). -/
  | buttonNotZero
  /-- OP is PRESSED or HELD and BTN is 5, 6 or 7 (R53). -/
  | noSuchButton
deriving DecidableEq, Repr

/-- What a command word decodes to (R57): a legal command, or `Illegal` with the rule that made it so. -/
inductive Command where
  | legal (i : Instr)
  | illegal (why : Illegal)
deriving DecidableEq, Repr

end Sys2Proof
end

