-- ==== Sys2Proof/WellFormed.lean ====
section
/-! DEFINITION. The four fields of a command word (30_encoding.md R51) and the checks that make a word one of the
twenty legal ones (R53 to R56), each check under its own name. -/

namespace Sys2Proof

/-- The fields of the one format, "C" (R51). -/
structure Fields where
  /-- RSV, bits 31:8. -/
  rsv : BitVec 24
  /-- OP, bits 7:4. -/
  op  : BitVec 4
  /-- R3, bit 3. -/
  r3  : BitVec 1
  /-- BTN, bits 2:0. -/
  btn : BitVec 3
deriving DecidableEq, Repr

/-- R54: RSV and R3 must be 0. -/
def Fields.reservedZero (f : Fields) : Bool := f.rsv == 0 && f.r3 == 0

/-- R56: OP 0xC to 0xF are reserved. -/
def Fields.opDefined (f : Fields) : Bool := decide (f.op.toNat ≤ 0xB)

/-- R52, R53: PRESSED (0x8) and HELD (0x9) take a button. -/
def Fields.takesButton (f : Fields) : Bool := f.op == 0x8 || f.op == 0x9

/-- R53, R55: BTN is 0 to 4 where OP takes a button, and 0 where it takes none. -/
def Fields.buttonFits (f : Fields) : Bool :=
  if f.takesButton then decide (f.btn.toNat ≤ 4) else f.btn == 0

/-- A command word is well formed when all three checks pass; every other word is illegal (R56). -/
def Fields.wellFormed (f : Fields) : Bool := f.reservedZero && f.opDefined && f.buttonFits

end Sys2Proof
end

