-- ==== Sys2Proof/Decode.lean ====
section
/-! DEFINITION. The decoder of 30_encoding.md R57, total on all 2^32 words and rejecting by name; then the encoder,
written from the format of R51 and the opcode map of R52. -/

namespace Sys2Proof

/-- BTN's value for each button (R53). -/
def Button.code : Button → BitVec 3
  | .btnA => 0
  | .btnB => 1
  | .btnX => 2
  | .btnY => 3
  | .btnStart => 4

/-- The button a BTN value names; 5, 6 and 7 name none (R53). -/
def Button.ofCode (btn : BitVec 3) : Option Button :=
  match btn.toNat with
  | 0 => some .btnA
  | 1 => some .btnB
  | 2 => some .btnX
  | 3 => some .btnY
  | 4 => some .btnStart
  | _ => none

/-- `PRESSED b` (R95) as the opcode table's row for button `b`. -/
def Instr.pressed : Button → Instr
  | .btnA => .pressedA
  | .btnB => .pressedB
  | .btnX => .pressedX
  | .btnY => .pressedY
  | .btnStart => .pressedStart

/-- `HELD b` (R96) as the opcode table's row for button `b`. -/
def Instr.held : Button → Instr
  | .btnA => .heldA
  | .btnB => .heldB
  | .btnX => .heldX
  | .btnY => .heldY
  | .btnStart => .heldStart

/-- The fields of a word (R51). -/
def Fields.ofWord (w : Word) : Fields where
  rsv := w.extractLsb' 8 24
  op  := w.extractLsb' 4 4
  r3  := w.extractLsb' 3 1
  btn := w.extractLsb' 0 3

/-- The word with the given fields (R51): `{RSV, OP, R3, BTN}`. -/
def Fields.toWord (f : Fields) : Word := f.rsv ++ f.op ++ f.r3 ++ f.btn

/-- R57 for an OP that takes no button: legal when BTN is 0. -/
def decodePlain (btn : BitVec 3) (i : Instr) : Command :=
  if btn = 0 then .legal i else .illegal .buttonNotZero

/-- R57 for PRESSED and HELD: legal when BTN names a button. -/
def decodeButton (btn : BitVec 3) (row : Button → Instr) : Command :=
  match Button.ofCode btn with
  | some b => .legal (row b)
  | none => .illegal .noSuchButton

/-- The `case op` of R57. -/
def decodeOp (op : BitVec 4) (btn : BitVec 3) : Command :=
  match op.toNat with
  | 0x0 => decodePlain btn .nop
  | 0x1 => decodePlain btn .init
  | 0x2 => decodePlain btn .raw
  | 0x3 => decodePlain btn .mapped
  | 0x4 => decodePlain btn .polar
  | 0x5 => decodePlain btn .mag
  | 0x6 => decodePlain btn .angle
  | 0x7 => decodePlain btn .dir
  | 0x8 => decodeButton btn .pressed
  | 0x9 => decodeButton btn .held
  | 0xA => decodePlain btn .resetall
  | 0xB => decodePlain btn .clrerr
  | _ => .illegal .reservedOp

/-- R57: the command a word encodes. It never depends on state. -/
def decode (w : Word) : Command :=
  let f := Fields.ofWord w
  if f.rsv ≠ 0 ∨ f.r3 ≠ 0 then .illegal .reservedBits else decodeOp f.op f.btn

/-- OP of each command (R52). -/
def Instr.op : Instr → BitVec 4
  | .nop => 0x0
  | .init => 0x1
  | .raw => 0x2
  | .mapped => 0x3
  | .polar => 0x4
  | .mag => 0x5
  | .angle => 0x6
  | .dir => 0x7
  | .pressedA => 0x8
  | .pressedB => 0x8
  | .pressedX => 0x8
  | .pressedY => 0x8
  | .pressedStart => 0x8
  | .heldA => 0x9
  | .heldB => 0x9
  | .heldX => 0x9
  | .heldY => 0x9
  | .heldStart => 0x9
  | .resetall => 0xA
  | .clrerr => 0xB

/-- The button operand of a command, where it has one (R53, R59). -/
def Instr.button : Instr → Option Button
  | .nop => none
  | .init => none
  | .raw => none
  | .mapped => none
  | .polar => none
  | .mag => none
  | .angle => none
  | .dir => none
  | .pressedA => some .btnA
  | .pressedB => some .btnB
  | .pressedX => some .btnX
  | .pressedY => some .btnY
  | .pressedStart => some .btnStart
  | .heldA => some .btnA
  | .heldB => some .btnB
  | .heldX => some .btnX
  | .heldY => some .btnY
  | .heldStart => some .btnStart
  | .resetall => none
  | .clrerr => none

/-- The fields of a command's word: the reserved fields 0, and BTN 0 where the command takes no button (R51). -/
def Instr.fields (i : Instr) : Fields where
  rsv := 0
  op  := i.op
  r3  := 0
  btn := (i.button.map Button.code).getD 0

/-- Whether a command's fields pass the checks of WellFormed.lean. -/
def Instr.wellFormed (i : Instr) : Bool := i.fields.wellFormed

/-- The one 32-bit word of a command (R52, R58). -/
def encode (i : Instr) : Word := i.fields.toWord

/-- The host's question about one row of the opcode table: the command the decoder reads from an instruction whose
`nbits` bits are `w`, every bit above them 0. A command is one word (R58), so the word is the bus data itself. -/
def decodeTableWord (nbits w : Nat) : Option Instr :=
  match decode (BitVec.ofNat 32 (w % 2 ^ nbits)) with
  | .legal i => some i
  | .illegal _ => none

end Sys2Proof
end

