-- ==== Sys2Proof/Config.lean ====
section
/-! DEFINITION. The implementation parameters of 00_scope.md R5, each fixed for this hardware. BASE, the one open
parameter, is no constant: `State.basePage` holds it, so that every statement is about every BASE (log 2). -/

namespace Sys2Proof.Config

/-- `S`, the fixed-point scale: one unit of Q16.16 (R5, R8). -/
abbrev one : Nat := 65536

/-- The greatest legal value of an analog port, 1.0 (R5, R28). -/
abbrev sampleMax : Nat := 0x10000

/-- The reciprocal of the noise tolerance 0.1: a magnitude `M0` is below it when `10 * M0 < S` (R5, R70). -/
abbrev noiseInverse : Nat := 10

/-- The size of the register window in bytes; BASE is a multiple of it (R5, R34). -/
abbrev windowBytes : Nat := 64

/-- The only defined width of a host access, in bytes (R38). -/
abbrev accessBytes : Nat := 4

end Sys2Proof.Config
end

