-- ==== Sys2Proof/Machine/State.lean ====
section
/-! DEFINITION. The state of the block (10_state.md R33), with the model's own fields beside it: what the environment
presents and has asked for (00_scope.md R13), and the block's last answer on the bus. Plain data throughout. -/

namespace Sys2Proof.Machine

/-- STATUS (10_state.md R16 to R22), one field per defined bit; `Status.word` builds the register from them as R22
writes it. Bits 31:5 are reserved and read 0, and no host write reaches the register, so nothing else is stored (log 12,
DEDUCED, safe). -/
structure Status where
  /-- Bit 0, INIT: an INIT has executed since the last reset (R16). -/
  init : Bool
  /-- Bit 1, NOCAL, sticky: a geometry command was refused (R18). -/
  nocal : Bool
  /-- Bit 2, DOMERR, sticky: a radicand was negative (R19). -/
  domerr : Bool
  /-- Bit 3, ILLEGAL, sticky: an illegal word was written (R20). -/
  illegal : Bool
  /-- Bit 4, SAT, sticky: a sample was saturated (R21). -/
  sat : Bool
deriving DecidableEq, Repr

/-- One transaction of the host bus (20_memory.md §3): its width in bytes, its address and, for a write, its data.
A write of another width than 4 bytes is a bus error whatever its data (R38), so the data is one word (log 7,
DEDUCED, safe). -/
inductive HostAccess where
  | read (bytes addr : Nat)
  | write (bytes addr : Nat) (data : Word)
deriving DecidableEq, Repr

/-- One atomic step of an agent (00_scope.md R13). Synchronisers, time skew, several masters and time itself are left out
(log 11), and so is a transaction cut by RESET (log 13). -/
inductive Event where
  /-- HOST: one bus transaction. -/
  | host (access : HostAccess)
  /-- PIN(b, l): the environment sets button input `b` to level `l` (41_buttons.md R91). -/
  | pin (button : Button) (level : Bool)
  /-- ANALOG: the ports AIN_H and AIN_V present these values from now on (R28; the `env` line of R61). -/
  | analog (h v : Sample)
  /-- RESET, with the levels BTN_IN presents when reset is released (70_reset_and_hazards.md R125, R126). -/
  | reset (btnIn : Lines)
deriving DecidableEq, Repr

/-- What the block last answered on the bus (R14, R41, R44, R111). -/
inductive Response where
  /-- The block has answered nothing since reset, or the last access was not addressed to it (R37). -/
  | noResponse
  /-- OKAY, to a write (R44). -/
  | okay
  /-- OKAY with read data (R41). -/
  | readData (value : Word)
  /-- The error response of `raise BusError(addr)` (R111). -/
  | busError (addr : Nat)
deriving DecidableEq, Repr

/-- The state: first the tuple of 10_state.md R33, each register at its used width (R15), then the model's own fields
(logs 1 to 4), which are no state of the block. -/
structure State where
  /-- STATUS[4:0] (R16 to R22). -/
  status : Status
  /-- RES_X, Q16.16 signed (R15, R24). -/
  resX : Word
  /-- RES_Y, Q16.16 signed (R15, R24). -/
  resY : Word
  /-- RES_MAG, Q16.16 signed (R15, R24). -/
  resMag : Word
  /-- RES_ANG, Q16.16 signed degrees (R15, R24). -/
  resAng : Word
  /-- RES_DIR, a direction code (R15, R24). -/
  resDir : BitVec 4
  /-- RES_BIT, a boolean (R15, R24). -/
  resBit : BitVec 1
  /-- CAL_X0, the origin of the horizontal channel (R23). -/
  calX0 : Sample
  /-- CAL_Y0, the origin of the vertical channel (R23). -/
  calY0 : Sample
  /-- LATCH[4:0], the pending presses (R25). -/
  latch : Lines
  /-- LEVEL[4:0], the pin levels as last sampled: 1 released, 0 pressed (R26). -/
  level : Lines
  /-- The model's own: what the port AIN_H presents now (R28; log 1). -/
  ainH : Sample
  /-- The model's own: what the port AIN_V presents now (R28; log 1). -/
  ainV : Sample
  /-- The model's own: the open parameter BASE, as a multiple of the window's size (R5, R34; log 2). -/
  basePage : Nat
  /-- The model's own: the steps of the agents still to come, oldest first (R13; log 3). -/
  pending : List Event
  /-- The model's own: the block's answer to the last host access (R14; log 4). -/
  response : Response
deriving DecidableEq, Repr

/-- The faults of the machine: none. The block never traps, halts or sticks (R14, R109): every error is a STATUS flag
or a bus response, after which the machine goes on. -/
inductive Fault where
deriving DecidableEq, Repr

/-- The refusals of the machine. -/
inductive Refusal where
  /-- Raised by an arm of `exec` whose instruction has no meaning yet; safe. No arm raises it now. -/
  | notModelled (mnemonic : String)
deriving DecidableEq, Repr

/-- The machine right after reset. The block's registers and latches are at the values of R15, R25 and R125. LEVEL is a
draw (R126), here all released (log 5, DESIGN CHOICE, unsafe). The model's own fields, all DESIGN CHOICE: ports at 0
(log 1), BASE at 0 (log 2), no step to come (log 3), no answer given (log 4). -/
def State.reset : State where
  status := { init := false, nocal := false, domerr := false, illegal := false, sat := false }
  resX := 0
  resY := 0
  resMag := 0
  resAng := 0
  resDir := 0
  resBit := 0
  calX0 := 0
  calY0 := 0
  latch := 0
  level := 0b11111
  ainH := 0
  ainV := 0
  basePage := 0
  pending := []
  response := .noResponse

end Sys2Proof.Machine
end

