-- ==== Sys2Proof/Machine/Flags.lean ====
section
/-! DEFINITION. STATUS: the register's value, and the setting and clearing of its flags (10_state.md R16 to R22;
60_exceptions.md R113). -/

namespace Sys2Proof.Machine

/-- The sticky flags (R17). Each is the record of one condition (R113). -/
inductive StickyFlag where
  | nocal
  | domerr
  | illegal
  | sat
deriving DecidableEq, Repr

/-- The cause code of a condition: the number of the STATUS bit it sets (R113). -/
def StickyFlag.code : StickyFlag → Nat
  | .nocal => 1
  | .domerr => 2
  | .illegal => 3
  | .sat => 4

/-- `x[STATUS].F` for a sticky flag. -/
def Status.flag (st : Status) : StickyFlag → Bool
  | .nocal => st.nocal
  | .domerr => st.domerr
  | .illegal => st.illegal
  | .sat => st.sat

/-- `x[STATUS].F <- 1` (R17): setting a flag that is already 1 leaves it 1. -/
def Status.set (st : Status) : StickyFlag → Status
  | .nocal => { st with nocal := true }
  | .domerr => { st with domerr := true }
  | .illegal => { st with illegal := true }
  | .sat => { st with sat := true }

/-- The STATUS register (R22): `zext_32({SAT, ILLEGAL, DOMERR, NOCAL, INIT})`. -/
def Status.word (st : Status) : Word :=
  (BitVec.ofBool st.sat ++ BitVec.ofBool st.illegal ++ BitVec.ofBool st.domerr ++ BitVec.ofBool st.nocal
    ++ BitVec.ofBool st.init).setWidth 32

/-- `setflag(F)` (00_scope.md R12). -/
def State.setFlag (f : StickyFlag) (s : State) : State := { s with status := s.status.set f }

/-- `setflag(F)` where a condition holds, and nothing where it does not. -/
def State.setFlagIf (c : Bool) (f : StickyFlag) (s : State) : State := if c then s.setFlag f else s

/-- All four sticky flags cleared, INIT kept (R106). -/
def State.clearFlags (s : State) : State :=
  { s with status := { s.status with nocal := false, domerr := false, illegal := false, sat := false } }

/-- STATUS.INIT set (R103). -/
def State.setInit (s : State) : State := { s with status := { s.status with init := true } }

end Sys2Proof.Machine
end

