-- ==== Sys2Proof/Machine/Operands.lean ====
section
/-! DEFINITION. Everything a command or a host access reads and writes: the bits of LATCH and LEVEL by button, the
result and calibration registers, the register window and the output PU_EN (10_state.md; 20_memory.md R35, R40, R41). -/

namespace Sys2Proof.Machine

/-- `sext_32(v)`: an integer in [-2^31, 2^31) as 32 bits two's complement (00_scope.md R6). -/
def sext32 (v : Int) : Word := BitVec.ofInt 32 v

/-- `zext_32(v)`: an unsigned value as 32 bits (00_scope.md R6). -/
def zext32 {n : Nat} (v : BitVec n) : Word := v.setWidth 32

/-! Bits by button: BTN is the index, unscaled (R59). -/

/-- The index of a button's bit. -/
def buttonIndex (b : Button) : Nat := b.code.toNat

/-- Bit `b`. -/
def lineBit (v : Lines) (b : Button) : Bool := v.getLsbD (buttonIndex b)

/-- Bit `b` set to `l`, the others kept. -/
def setLine (v : Lines) (b : Button) (l : Bool) : Lines :=
  if l then v ||| (1#5 <<< buttonIndex b) else v &&& ~~~(1#5 <<< buttonIndex b)

/-! Register writes. -/

/-- RES_X and RES_Y (R79, R80). -/
def State.writeXY (x y : Int) (s : State) : State := { s with resX := sext32 x, resY := sext32 y }

/-- RES_MAG (R81, R82). -/
def State.writeMag (m : Int) (s : State) : State := { s with resMag := sext32 m }

/-- RES_ANG (R81, R83). -/
def State.writeAng (a : Int) (s : State) : State := { s with resAng := sext32 a }

/-- RES_DIR (R84). -/
def State.writeDir (code : BitVec 4) (s : State) : State := { s with resDir := code }

/-- RES_BIT (R95, R96). -/
def State.writeBit (v : Bool) (s : State) : State := { s with resBit := BitVec.ofBool v }

/-- CAL_X0 and CAL_Y0 (R103). -/
def State.writeCal (h v : Sample) (s : State) : State := { s with calX0 := h, calY0 := v }

/-- `LATCH[b] <- v` (R92, R95). -/
def State.writeLatch (b : Button) (v : Bool) (s : State) : State := { s with latch := setLine s.latch b v }

/-- All five latches cleared (R97, R103). -/
def State.clearLatches (s : State) : State := { s with latch := 0 }

/-- `LEVEL[b] <- l` (R91). -/
def State.writeLevel (b : Button) (l : Bool) (s : State) : State := { s with level := setLine s.level b l }

/-! The register window. -/

/-- The registers of the window (R15, R35). -/
inductive Reg where
  | cmd
  | status
  | resX
  | resY
  | resMag
  | resAng
  | resDir
  | resBit
  | calX0
  | calY0
deriving DecidableEq, Repr

/-- The offset of a register (R35). -/
def Reg.offset : Reg → Nat
  | .cmd => 0x00
  | .status => 0x04
  | .resX => 0x08
  | .resY => 0x0C
  | .resMag => 0x10
  | .resAng => 0x14
  | .resDir => 0x18
  | .resBit => 0x1C
  | .calX0 => 0x20
  | .calY0 => 0x24

/-- The register at an offset; none at a reserved one (R35, R36). -/
def Reg.atOffset (off : Nat) : Option Reg :=
  match off with
  | 0x00 => some .cmd
  | 0x04 => some .status
  | 0x08 => some .resX
  | 0x0C => some .resY
  | 0x10 => some .resMag
  | 0x14 => some .resAng
  | 0x18 => some .resDir
  | 0x1C => some .resBit
  | 0x20 => some .calX0
  | 0x24 => some .calY0
  | _ => none

/-- The value the host reads of a register, its unused upper bits 0 (R15, R41); CMD is not storage and has none
(R31, R43). -/
def State.readReg (s : State) : Reg → Option Word
  | .cmd => none
  | .status => some s.status.word
  | .resX => some s.resX
  | .resY => some s.resY
  | .resMag => some s.resMag
  | .resAng => some s.resAng
  | .resDir => some (zext32 s.resDir)
  | .resBit => some (zext32 s.resBit)
  | .calX0 => some (zext32 s.calX0)
  | .calY0 => some (zext32 s.calY0)

/-- The byte a host bus with visible lanes sees at `BASE + off + k`, for `k` in 0 to 3: bits `[8k+7:8k]` of the register
at `off` (R40). No access of the block shows it alone (R38). -/
def State.laneByte (s : State) (r : Reg) (k : Nat) : Option Byte :=
  (s.readReg r).map fun w => w.extractLsb' (8 * k) 8

/-- BASE, the address of the window: 64-byte aligned (R5, R34). -/
def State.base (s : State) : Nat := Config.windowBytes * s.basePage

/-- PU_EN[4:0], the pull-up outputs: every bit equals STATUS.INIT (R30). -/
def State.puEn (s : State) : Lines := if s.status.init then 0b11111 else 0

/-- The block's answer to a host access, where the host sees it. -/
def State.respond (r : Response) (s : State) : State := { s with response := r }

end Sys2Proof.Machine
end

