-- ==== Sys2Proof/Machine/Ops.lean ====
section
/-! DEFINITION. The shared operations of the commands: sampling the analog ports (40_geometry.md R63), and the one way
a command is abandoned (60_exceptions.md R110, R118). The block takes no traps and has no return from one (R118, R119):
an abandoned command sets its flag and changes nothing else, and the machine goes on. -/

namespace Sys2Proof.Machine

/-- `min(a, 0x10000)` on a port value (R63). -/
def saturate (a : Sample) : Sample := if a.toNat > Config.sampleMax then BitVec.ofNat 17 Config.sampleMax else a

/-- Whether a port value is outside the legal range (R21, R63). -/
def overRange (a : Sample) : Bool := decide (a.toNat > Config.sampleMax)

/-- A pair of samples, each in 0 to 0x10000 (R63). -/
structure SamplePair where
  h : Sample
  v : Sample
deriving DecidableEq, Repr

/-- `sample()` (R63): both ports read once, in the same step; SAT set if either is out of range. -/
def sample (s : State) : SamplePair × State :=
  (⟨saturate s.ainH, saturate s.ainV⟩, s.setFlagIf (overRange s.ainH || overRange s.ainV) .sat)

/-- `raise IllegalCommand` and `raise NoCal` (00_scope.md R12; R110): the flag is set, the command ends, and nothing
else changes. -/
def abandon (f : StickyFlag) (s : State) : Host.Outcome State Fault Refusal := .next (s.setFlag f)

/-- The common precondition of the geometry commands (R78): with STATUS.INIT = 0 the command does `raise NoCal` before
it samples; otherwise it runs. -/
def calibrated (run : State → State) (s : State) : Host.Outcome State Fault Refusal :=
  if s.status.init then .next (run s) else abandon .nocal s

end Sys2Proof.Machine
end

