-- ==== Sys2Proof/Machine/Buttons.lean ====
section
/-! DEFINITION. The button commands (41_buttons.md R95 to R97). They run whether or not STATUS.INIT is 1 (R101). -/

namespace Sys2Proof.Machine

/-- `PRESSED b` (R95): the latch is read and cleared in one step (R49). -/
def pressed (b : Button) (s : State) : State := (s.writeBit (lineBit s.latch b)).writeLatch b false

/-- `HELD b` (R96): the inverted live level. -/
def held (b : Button) (s : State) : State := s.writeBit (!lineBit s.level b)

/-- PRESSED A (R95). -/
def execPressedA (s : State) : Host.Outcome State Fault Refusal := .next (pressed .btnA s)

/-- PRESSED B (R95). -/
def execPressedB (s : State) : Host.Outcome State Fault Refusal := .next (pressed .btnB s)

/-- PRESSED X (R95). -/
def execPressedX (s : State) : Host.Outcome State Fault Refusal := .next (pressed .btnX s)

/-- PRESSED Y (R95). -/
def execPressedY (s : State) : Host.Outcome State Fault Refusal := .next (pressed .btnY s)

/-- PRESSED START (R95). -/
def execPressedStart (s : State) : Host.Outcome State Fault Refusal := .next (pressed .btnStart s)

/-- HELD A (R96). -/
def execHeldA (s : State) : Host.Outcome State Fault Refusal := .next (held .btnA s)

/-- HELD B (R96). -/
def execHeldB (s : State) : Host.Outcome State Fault Refusal := .next (held .btnB s)

/-- HELD X (R96). -/
def execHeldX (s : State) : Host.Outcome State Fault Refusal := .next (held .btnX s)

/-- HELD Y (R96). -/
def execHeldY (s : State) : Host.Outcome State Fault Refusal := .next (held .btnY s)

/-- HELD START (R96). -/
def execHeldStart (s : State) : Host.Outcome State Fault Refusal := .next (held .btnStart s)

/-- RESETALL (R97): all five latches cleared; LEVEL, STATUS and the results unchanged. -/
def execResetall (s : State) : Host.Outcome State Fault Refusal := .next s.clearLatches

end Sys2Proof.Machine
end

