-- ==== Sys2Proof/Machine/Control.lean ====
section
/-! DEFINITION. The lifecycle and control commands (42_control.md R102, R103, R106). -/

namespace Sys2Proof.Machine

/-- NOP (R102): no state changes. -/
def execNop (s : State) : Host.Outcome State Fault Refusal := .next s

/-- INIT (R103): one sample becomes the origin, the latches are cleared and the edge detectors armed. Legal in every
state; a second INIT does all of it again (R104). -/
def execInit (s : State) : Host.Outcome State Fault Refusal :=
  let (p, s) := sample s
  .next (((s.writeCal p.h p.v).clearLatches).setInit)

/-- CLRERR (R106): the four sticky flags cleared, STATUS.INIT and everything else unchanged. -/
def execClrerr (s : State) : Host.Outcome State Fault Refusal := .next s.clearFlags

end Sys2Proof.Machine
end

