-- ==== Sys2Proof/Machine/Arith.lean ====
section
/-! DEFINITION. The exact integer primitives of 00_scope.md R7, R9 and R10. Arithmetic is on unbounded integers. -/

namespace Sys2Proof.Machine

/-- A pair of integers: a coordinate (X, Y), or a vector (PX, PY) of the polar frame. -/
structure Point where
  x : Int
  y : Int
deriving DecidableEq, Repr

/-- `isqrt` on numbers below `4 ^ fuel`: the root of `n / 4`, doubled, and its last binary digit. -/
def isqrtFuel : Nat → Nat → Nat
  | 0, _ => 0
  | fuel + 1, n =>
    let r := 2 * isqrtFuel fuel (n / 4)
    if (r + 1) * (r + 1) ≤ n then r + 1 else r

/-- `isqrt(n)`: the greatest q with q*q <= n (R9). -/
def isqrt (n : Nat) : Nat := isqrtFuel (n.log2 + 1) n

/-- `a div b` for a positive power of two `b = 2^k`: floor division (R10). -/
def divFloor (v : Int) (k : Nat) : Int := v / ((2 ^ k : Nat) : Int)

/-- Division by `2^k` rounded up. -/
def divCeil (v : Int) (k : Nat) : Int := -((-v) / ((2 ^ k : Nat) : Int))

end Sys2Proof.Machine
end

