-- ==== Sys2Proof/Machine/Angle.lean ====
section
/-! DEFINITION. The angle of a vector: `floor(compass(PX, PY) * S)`, exact (00_scope.md R11; 40_geometry.md R71, "A model
may implement `compass` with any method that yields this floor").

The method uses integers only. A first-quadrant vector `z` at `t` turns (0 <= t < 1/4) stands at `360 * 65536 * t` units
of 2^-16 degree, and `360 * 65536 = 45 * 2^19`. So `z` is raised to the 45th power, counting the full turns it makes, and
the result is squared 19 times: each squaring doubles the angle, and the half plane the vector stands in before it is the
next binary digit of `floor(45 * 2^19 * t)`. To keep the numbers short, the vector is enclosed between two vectors
`lo` and `hi`, trimmed outwards after each squaring; a digit counts only where both stand in the same half plane, less
than a quarter turn apart. Where the enclosure is too wide, the same digits are computed without trimming. That this is
the exact floor is proved in Laws/Angle.lean (log 10, DEDUCED, safe). -/

namespace Sys2Proof.Machine

/-- The product of two vectors as complex numbers: lengths multiply and angles add. -/
def Point.mul (a b : Point) : Point := ⟨a.x * b.x - a.y * b.y, a.x * b.y + a.y * b.x⟩

/-- The scalar product. -/
def Point.dot (a b : Point) : Int := a.x * b.x + a.y * b.y

/-- The cross product: not negative where `b` is reached from `a` by at most half a turn counter-clockwise. -/
def Point.cross (a b : Point) : Int := a.x * b.y - a.y * b.x

/-- Whether the angle of a vector is in [0, 180) degrees. -/
def Point.upper (v : Point) : Bool := decide (0 < v.y) || (decide (v.y = 0) && decide (0 ≤ v.x))

/-- The vector divided by `2^k`, rounded so that it turns clockwise, if at all. -/
def Point.trimDown (k : Nat) (v : Point) : Point :=
  ⟨if 0 ≤ v.y then divCeil v.x k else divFloor v.x k, if 0 ≤ v.x then divFloor v.y k else divCeil v.y k⟩

/-- The vector divided by `2^k`, rounded so that it turns counter-clockwise, if at all. -/
def Point.trimUp (k : Nat) (v : Point) : Point :=
  ⟨if 0 ≤ v.y then divFloor v.x k else divCeil v.x k, if 0 ≤ v.x then divCeil v.y k else divFloor v.y k⟩

/-- How many low bits to drop to keep about `precision` bits; none where no precision is given. -/
def Point.excess (precision : Option Nat) (v : Point) : Nat :=
  match precision with
  | none => 0
  | some p => max v.x.natAbs.log2 v.y.natAbs.log2 - p

/-- `z` to the power `n`, with the number of full turns its angle has made, for `z` in the upper half plane: a turn is
completed where the product passes from the lower half plane to the upper one. -/
def powTurns (z : Point) : Nat → Point × Nat
  | 0 => (⟨1, 0⟩, 0)
  | n + 1 =>
    let w := powTurns z n
    let w' := w.1.mul z
    (w', if !w.1.upper && w'.upper then w.2 + 1 else w.2)

/-- Whether `hi` is less than a quarter turn counter-clockwise of `lo`, or at it, and in the same half plane. -/
def enclosed (lo hi : Point) : Bool :=
  decide (0 < lo.dot hi) && decide (0 ≤ lo.cross hi) && (lo.upper == hi.upper)

/-- `n` more binary digits of the number of turns of a vector between `lo` and `hi`, appended to `acc`. -/
def turnDigits (precision : Option Nat) : Nat → Point → Point → Nat → Option Nat
  | 0, _, _, acc => some acc
  | n + 1, lo, hi, acc =>
    if enclosed lo hi then
      let lo2 := lo.mul lo
      let hi2 := hi.mul hi
      turnDigits precision n (lo2.trimDown (lo2.excess precision)) (hi2.trimUp (hi2.excess precision))
        (2 * acc + if lo.upper then 0 else 1)
    else none

/-- The angle of a first-quadrant vector in units of 2^-16 degree, where the precision suffices. -/
def quadrantUnits (precision : Option Nat) (z : Point) : Option Nat :=
  let w := powTurns z 45
  turnDigits precision 19 w.1 w.1 w.2

/-- The quadrant of a vector, and the vector turned back into the first quadrant (x > 0, y >= 0). -/
def quadrant (v : Point) : Nat × Point :=
  if 0 < v.x ∧ 0 ≤ v.y then (0, v)
  else if v.x ≤ 0 ∧ 0 < v.y then (1, ⟨v.y, -v.x⟩)
  else if v.x < 0 ∧ v.y ≤ 0 then (2, ⟨-v.x, -v.y⟩)
  else (3, ⟨-v.y, v.x⟩)

/-- `floor(compass(PX, PY) * S)` for (PX, PY) ≠ (0, 0) (R71). Never evaluated at (0, 0): R70 answers the sentinel
first. -/
def angleUnits (v : Point) : Nat :=
  let q := quadrant v
  q.1 * (90 * Config.one) +
    match quadrantUnits (some 128) q.2 with
    | some a => a
    | none => (quadrantUnits none q.2).getD 0

end Sys2Proof.Machine
end

