-- ==== Sys2Proof/Machine/Geometry.lean ====
section
/-! DEFINITION. The joystick geometry pipeline (40_geometry.md part 1) and its six commands (part 2). -/

namespace Sys2Proof.Machine

/-- Stage 1, `center(h, v, x0, y0)` (R65): the horizontal axis is sign-inverted. -/
def center (h v x0 y0 : Int) : Point := ⟨-2 * (h - x0), 2 * (v - y0)⟩

/-- `S2 = 2 * S * S` (R66). -/
def radicandUnit : Int := 2 * Config.one * Config.one

/-- The radicand numerator `S2 - c*c` before the clamp (R66). -/
def radicand (c : Int) : Int := radicandUnit - c * c

/-- Whether either radicand is negative, so that DOMERR is set (R66). -/
def domainError (p : Point) : Bool := decide (radicand p.y < 0) || decide (radicand p.x < 0)

/-- One axis of `map` (R67): `sgn(c) * isqrt((c*c*r) div S2)`, with `r` the clamped radicand of the other axis.
The arithmetic of R66 and R67 is followed against two derived words: R75 (c), a mapped axis is 0 also where the product is
below one unit (log 9, DEDUCED, safe); and R73, the raw coordinate (±2.0, 0) keeps Xm = ±2.0, so that the magnitude 2.0 is
reached there too and not only at (0, ±2.0) (log 15, DEDUCED, safe). -/
def mapAxis (c other : Int) : Int :=
  c.sign * (isqrt ((c * c * max (radicand other) 0) / radicandUnit).toNat : Int)

/-- Stage 2, the square-to-circle mapper (R67): both axes from the unmapped coordinate. -/
def squareToCircle (p : Point) : Point := ⟨mapAxis p.x p.y, mapAxis p.y p.x⟩

/-- Stage 3, the axis-swapped polar frame (R68): PX = Ym, PY = Xm, no negation. -/
def polarFrame (p : Point) : Point := ⟨p.y, p.x⟩

/-- Stage 3, the magnitude before the noise floor (R69). -/
def magnitude (v : Point) : Nat := isqrt (v.x * v.x + v.y * v.y).toNat

/-- A polar reading (M, A), in units of 2^-16 and 2^-16 degree. -/
structure Polar where
  mag : Int
  ang : Int
deriving DecidableEq, Repr

/-- The sentinel: magnitude 0.0, angle -1.0 (R70). -/
def sentinel : Polar := ⟨0, -(Config.one : Int)⟩

/-- Stages 3 and 4 (R69 to R71): the sentinel below the noise floor, else the magnitude and the exact angle. -/
def polarOf (v : Point) : Polar :=
  if Config.noiseInverse * magnitude v < Config.one then sentinel else ⟨magnitude v, angleUnits v⟩

/-- The directions (R72). -/
inductive Direction where
  | centre
  | north
  | northEast
  | east
  | southEast
  | south
  | southWest
  | west
  | northWest
deriving DecidableEq, Repr

/-- The direction codes (R72). -/
def Direction.code : Direction → BitVec 4
  | .centre => 0
  | .north => 1
  | .northEast => 2
  | .east => 3
  | .southEast => 4
  | .south => 5
  | .southWest => 6
  | .west => 7
  | .northWest => 8

/-- Stage 5, `discretize(A)` (R72), tested in ascending order. -/
def discretize (a : Int) : Direction :=
  if a < 0 then .centre
  else if a < 0x00168000 then .north
  else if a < 0x00438000 then .northEast
  else if a < 0x00708000 then .east
  else if a < 0x009D8000 then .southEast
  else if a < 0x00CA8000 then .south
  else if a < 0x00F78000 then .southWest
  else if a < 0x01248000 then .west
  else if a < 0x01518000 then .northWest
  else .north

/-- R74's sector of (PX, PY) ≠ (0, 0), with no arctangent. R72's form is the one DIR runs; that the two agree is a
statement. -/
def sector (v : Point) : Direction :=
  let ax := (v.x.natAbs : Int)
  let ay := (v.y.natAbs : Int)
  if 0 < v.x ∧ (ay + ax) ^ 2 < 2 * ax ^ 2 then .north
  else if 0 < v.y ∧ (ax + ay) ^ 2 < 2 * ay ^ 2 then .east
  else if v.x < 0 ∧ (ay + ax) ^ 2 < 2 * ax ^ 2 then .south
  else if v.y < 0 ∧ (ax + ay) ^ 2 < 2 * ay ^ 2 then .west
  else if 0 < v.x ∧ 0 < v.y then .northEast
  else if v.x < 0 ∧ 0 < v.y then .southEast
  else if v.x < 0 ∧ v.y < 0 then .southWest
  else .northWest

/-! The composite pipeline (R77). Each draws one fresh sample and reads no result register (R85). -/

/-- `geomRaw()`. -/
def geomRaw (s : State) : Point × State :=
  let (p, s) := sample s
  (center p.h.toNat p.v.toNat s.calX0.toNat s.calY0.toNat, s)

/-- `geomMapped()`: may set DOMERR (R66). -/
def geomMapped (s : State) : Point × State :=
  let (p, s) := geomRaw s
  (squareToCircle p, s.setFlagIf (domainError p) .domerr)

/-- `geomPolar()`. -/
def geomPolar (s : State) : Polar × State :=
  let (p, s) := geomMapped s
  (polarOf (polarFrame p), s)

/-! The geometry commands. -/

/-- RAW (R79). -/
def execRaw (s : State) : Host.Outcome State Fault Refusal :=
  calibrated (fun s => let (p, s) := geomRaw s; s.writeXY p.x p.y) s

/-- MAPPED (R80). -/
def execMapped (s : State) : Host.Outcome State Fault Refusal :=
  calibrated (fun s => let (p, s) := geomMapped s; s.writeXY p.x p.y) s

/-- POLAR (R81): both fields from one sample. -/
def execPolar (s : State) : Host.Outcome State Fault Refusal :=
  calibrated (fun s => let (r, s) := geomPolar s; (s.writeMag r.mag).writeAng r.ang) s

/-- MAG (R82): RES_ANG is unchanged. -/
def execMag (s : State) : Host.Outcome State Fault Refusal :=
  calibrated (fun s => let (r, s) := geomPolar s; s.writeMag r.mag) s

/-- ANGLE (R83): RES_MAG is unchanged. -/
def execAngle (s : State) : Host.Outcome State Fault Refusal :=
  calibrated (fun s => let (r, s) := geomPolar s; s.writeAng r.ang) s

/-- DIR (R84): from this command's own sample. -/
def execDir (s : State) : Host.Outcome State Fault Refusal :=
  calibrated (fun s => let (r, s) := geomPolar s; s.writeDir (discretize r.ang).code) s

end Sys2Proof.Machine
end

