-- ==== Sys2Proof/Machine/Dispatch.lean ====
section
/-! DEFINITION. The dispatch frame of 42_control.md R108, one arm for each legal command. -/

namespace Sys2Proof.Machine

def exec (i : Instr) (s : State) : Host.Outcome State Fault Refusal :=
  match i with
  | .nop => Sys2Proof.Machine.execNop s
  | .init => Sys2Proof.Machine.execInit s
  | .raw => Sys2Proof.Machine.execRaw s
  | .mapped => Sys2Proof.Machine.execMapped s
  | .polar => Sys2Proof.Machine.execPolar s
  | .mag => Sys2Proof.Machine.execMag s
  | .angle => Sys2Proof.Machine.execAngle s
  | .dir => Sys2Proof.Machine.execDir s
  | .pressedA => Sys2Proof.Machine.execPressedA s
  | .pressedB => Sys2Proof.Machine.execPressedB s
  | .pressedX => Sys2Proof.Machine.execPressedX s
  | .pressedY => Sys2Proof.Machine.execPressedY s
  | .pressedStart => Sys2Proof.Machine.execPressedStart s
  | .heldA => Sys2Proof.Machine.execHeldA s
  | .heldB => Sys2Proof.Machine.execHeldB s
  | .heldX => Sys2Proof.Machine.execHeldX s
  | .heldY => Sys2Proof.Machine.execHeldY s
  | .heldStart => Sys2Proof.Machine.execHeldStart s
  | .resetall => Sys2Proof.Machine.execResetall s
  | .clrerr => Sys2Proof.Machine.execClrerr s

end Sys2Proof.Machine
end

