-- ==== Sys2Proof/Machine/Agents.lean ====
section
/-! DEFINITION. The atomic steps of the four agents (00_scope.md R13): the host's transactions on the register window
(20_memory.md), PIN (41_buttons.md R91), ANALOG (R28) and RESET (70_reset_and_hazards.md R125); and the order the hardware
gives to what falls within one clock cycle (R99, R117). -/

namespace Sys2Proof.Machine

/-! HOST. -/

/-- Whether an address lies in the window `BASE .. BASE + 0x3F` (R34). An access is where its first byte is (log 6). -/
def State.inWindow (s : State) (addr : Nat) : Bool :=
  decide (s.base ≤ addr) && decide (addr < s.base + Config.windowBytes)

/-- A defined access is 32 bits wide (R38) and its address is a multiple of 4 (R39). -/
def wordAccess (bytes addr : Nat) : Bool := bytes == Config.accessBytes && addr % 4 == 0

/-- `raise BusError(addr)` (R12, R111): the error response, and no state of the block changes. -/
def raiseBusError (addr : Nat) (s : State) : Host.Outcome State Fault Refusal := .next (s.respond (.busError addr))

/-- `execute(decode(w))` (R108): a legal command runs, an illegal word does `raise IllegalCommand` (R107). -/
def executeWord (w : Word) (s : State) : Host.Outcome State Fault Refusal :=
  match decode w with
  | .legal i => exec i s
  | .illegal _ => abandon .illegal s

/-- The write response OKAY, once the command has run (R44). -/
def withOkay (o : Host.Outcome State Fault Refusal) : Host.Outcome State Fault Refusal :=
  match o with
  | .next t => .next (t.respond .okay)
  | .fault r => .fault r
  | .refused r => .refused r

/-- A host read (R36, R38, R39, R41, R43). Outside the window the block does not respond (R37). -/
def hostRead (bytes addr : Nat) (s : State) : Host.Outcome State Fault Refusal :=
  if s.inWindow addr then
    if wordAccess bytes addr then
      match (Reg.atOffset (addr - s.base)).bind s.readReg with
      | some v => .next (s.respond (.readData v))
      | none => raiseBusError addr s
    else raiseBusError addr s
  else .next (s.respond .noResponse)

/-- A host write (R36, R38, R39, R42, R44): the only writable register is CMD. -/
def hostWrite (bytes addr : Nat) (data : Word) (s : State) : Host.Outcome State Fault Refusal :=
  if s.inWindow addr then
    if wordAccess bytes addr && Reg.atOffset (addr - s.base) == some .cmd then withOkay (executeWord data s)
    else raiseBusError addr s
  else .next (s.respond .noResponse)

/-- One bus transaction. -/
def hostStep (a : HostAccess) (s : State) : Host.Outcome State Fault Refusal :=
  match a with
  | .read bytes addr => hostRead bytes addr s
  | .write bytes addr data => hostWrite bytes addr data s

/-! The environment. -/

/-- `PIN(b, l)` (R91): the level follows the pin, and an armed falling edge sets the latch (R92). -/
def pinStep (b : Button) (l : Bool) (s : State) : State :=
  let t := s.writeLevel b l
  if lineBit s.level b && !l && s.status.init then t.writeLatch b true else t

/-- ANALOG: the ports present new values (R28; log 1). -/
def analogStep (h v : Sample) (s : State) : State := { s with ainH := h, ainV := v }

/-- RESET (R125): every register and latch to its reset value, LEVEL to what the pins present (R126). The parameter
BASE, the ports and the steps to come are no state of the block and stay. -/
def resetStep (btnIn : Lines) (s : State) : State :=
  { State.reset with
    level := btnIn, ainH := s.ainH, ainV := s.ainV, basePage := s.basePage, pending := s.pending }

/-- One atomic step of an agent. -/
def perform (e : Event) (s : State) : Host.Outcome State Fault Refusal :=
  match e with
  | .host a => hostStep a s
  | .pin b l => .next (pinStep b l s)
  | .analog h v => .next (analogStep h v s)
  | .reset btnIn => .next (resetStep btnIn s)

/-- The oldest step still to come, performed; with none to come, nothing happens: the block takes no step on its own
(R13). -/
def performNext (s : State) : Host.Outcome State Fault Refusal :=
  match s.pending with
  | [] => .next s
  | e :: rest => perform e { s with pending := rest }

/-! One clock cycle. -/

/-- What falls within one clock cycle: at most one host access, any pin changes, and possibly RESET. -/
structure Cycle where
  host  : Option HostAccess
  pins  : List (Button × Bool)
  reset : Option Lines
deriving DecidableEq, Repr

/-- The order the hardware applies them in: the command first and the edges second (R99), RESET last (R117; log 8, DEDUCED, safe). -/
def Cycle.steps (c : Cycle) : List Event :=
  (c.host.map Event.host).toList ++ c.pins.map (fun p => Event.pin p.1 p.2) ++ (c.reset.map Event.reset).toList

end Sys2Proof.Machine
end

