-- ==== Sys2Proof/Machine/Step.lean ====
section
/-! DEFINITION. The step of the machine, and how an instruction is placed where the next step runs it. The block has no
program counter and fetches nothing (10_state.md R27; 20_memory.md R50): the host's transactions are its program. -/

namespace Sys2Proof.Machine

/-- One step: the oldest of the agents' steps still to come. -/
def step (s : State) : Host.Outcome State Fault Refusal := performNext s

/-- `s` with the host about to write the instruction's word to CMD, before every other step to come (R44; log 3). -/
def State.withFetchWord (s : State) (nbits w : Nat) : State :=
  { s with
    pending := .host (.write Config.accessBytes s.base (BitVec.ofNat 32 (w % 2 ^ nbits))) :: s.pending }

end Sys2Proof.Machine
end

