-- ==== Sys2Proof/Machine/HostLines.lean ====
section
/-! DEFINITION. The command mnemonics, the host-program lines and the three macros of 30_encoding.md R60 to R62, as the
commands and steps they stand for (log 14, DEDUCED, safe). -/

namespace Sys2Proof.Machine

/-- `<btn>`: a button's name, whatever its case, or its number (R60). -/
def buttonOfText (t : String) : Option Button :=
  match t.toUpper with
  | "A" => some .btnA
  | "B" => some .btnB
  | "X" => some .btnX
  | "Y" => some .btnY
  | "START" => some .btnStart
  | "0" => some .btnA
  | "1" => some .btnB
  | "2" => some .btnX
  | "3" => some .btnY
  | "4" => some .btnStart
  | _ => none

/-- The command written as a mnemonic and its operand, if it has one (R60). -/
def assemble (mnemonic : String) (operand : Option String) : Option Instr :=
  match mnemonic, operand with
  | "NOP", none => some .nop
  | "INIT", none => some .init
  | "RAW", none => some .raw
  | "MAPPED", none => some .mapped
  | "POLAR", none => some .polar
  | "MAG", none => some .mag
  | "ANGLE", none => some .angle
  | "DIR", none => some .dir
  | "PRESSED", some t => (buttonOfText t).map .pressed
  | "HELD", some t => (buttonOfText t).map .held
  | "RESETALL", none => some .resetall
  | "CLRERR", none => some .clrerr
  | _, _ => none

/-- A line of a host program (R61). -/
inductive HostLine where
  | cmd (i : Instr)
  | wr (offset : Nat) (word : Word)
  | rd (r : Reg)
  | env (h v : Sample)
  | pin (b : Button) (l : Bool)
  | reset (btnIn : Lines)
deriving DecidableEq, Repr

/-- The one step a line stands for, with the window at `base` (R61). -/
def HostLine.event (base : Nat) : HostLine → Event
  | .cmd i => .host (.write Config.accessBytes (base + Reg.offset .cmd) (encode i))
  | .wr offset word => .host (.write Config.accessBytes (base + offset) word)
  | .rd r => .host (.read Config.accessBytes (base + r.offset))
  | .env h v => .analog h v
  | .pin b l => .pin b l
  | .reset btnIn => .reset btnIn

/-- `read_polar` (R62). -/
def readPolar : List HostLine := [.cmd .polar, .rd .resMag, .rd .resAng]

/-- `read_xy RAW` and `read_xy MAPPED` (R62). -/
def readXY (mapped : Bool) : List HostLine := [.cmd (if mapped then .mapped else .raw), .rd .resX, .rd .resY]

/-- `poll PRESSED b` and `poll HELD b` (R62). -/
def poll (level : Bool) (b : Button) : List HostLine := [.cmd (if level then .held b else .pressed b), .rd .resBit]

/-- A host program placed behind the steps still to come. -/
def State.withLines (s : State) (lines : List HostLine) : State :=
  { s with pending := s.pending ++ lines.map (HostLine.event s.base) }

end Sys2Proof.Machine
end

