-- ==== Sys2Proof/Safety.lean ====
section
/-! DEFINITION. The terms the claims use: the ranges of a legal state (40_geometry.md R73; 10_state.md R15, R23), what a
step is about to do, and the source's real-valued formulas of the pipeline (40_geometry.md R64 to R72; 00_scope.md R11),
stated over the reals and independently of the machine's integer computation. Nothing here is part of the machine. -/

namespace Sys2Proof.Safety

open Sys2Proof.Machine

/-! Legal states. -/

/-- R23: the calibration origin is in 0 to 0x10000. -/
abbrev CalInRange (s : State) : Prop := s.calX0.toNat ≤ 65536 ∧ s.calY0.toNat ≤ 65536

/-- R73: the coordinates are in [-2.0, 2.0]. -/
abbrev CoordsInRange (s : State) : Prop :=
  -131072 ≤ s.resX.toInt ∧ s.resX.toInt ≤ 131072 ∧ -131072 ≤ s.resY.toInt ∧ s.resY.toInt ≤ 131072

/-- R73: the magnitude is 0, or from 0x199A up to 2.0. -/
abbrev MagInRange (s : State) : Prop :=
  s.resMag.toInt = 0 ∨ (6554 ≤ s.resMag.toInt ∧ s.resMag.toInt ≤ 131072)

/-- R73: the angle is the sentinel -1.0, or in [0, 360) degrees. -/
abbrev AngInRange (s : State) : Prop :=
  s.resAng.toInt = -65536 ∨ (0 ≤ s.resAng.toInt ∧ s.resAng.toInt ≤ 23592959)

/-- R72: codes 9 to 15 are never produced. -/
abbrev DirInRange (s : State) : Prop := s.resDir.toNat ≤ 8

/-- Every register is in the range its rules give it. -/
abbrev InRange (s : State) : Prop :=
  CalInRange s ∧ CoordsInRange s ∧ MagInRange s ∧ AngInRange s ∧ DirInRange s

/-- Before the first INIT (R78, R92, R101, R127) nothing but NOCAL, ILLEGAL, RES_BIT and LEVEL has left its reset
value. -/
abbrev UntouchedBeforeInit (s : State) : Prop :=
  s.status.init = false →
    s.latch = 0 ∧ s.calX0 = 0 ∧ s.calY0 = 0 ∧ s.resX = 0 ∧ s.resY = 0 ∧ s.resMag = 0 ∧ s.resAng = 0 ∧ s.resDir = 0 ∧
      s.status.domerr = false ∧ s.status.sat = false

/-! What the next step is. -/

/-- The next step is `e`. -/
abbrev Next (s : State) (e : Event) : Prop := s.pending.head? = some e

/-- The host write to CMD of the word of a command. -/
abbrev command (base : Nat) (i : Instr) : Event := .host (.write 4 base (encode i))

/-- The next step is RESET. -/
abbrev NextIsReset (s : State) : Prop := ∃ btnIn, Next s (.reset btnIn)

/-- The sticky flags taken away, everything else kept. -/
def withoutFlags (s : State) : State :=
  { s with status := { init := s.status.init, nocal := false, domerr := false, illegal := false, sat := false } }

/-! The source's formulas, over the reals. A command's inputs are the ports and the origin. -/

/-- R10: the integer part toward zero. -/
noncomputable def truncate (r : ℝ) : ℤ := if 0 ≤ r then ⌊r⌋ else ⌈r⌉

/-- R11: `atan2` in degrees, shifted into [0, 360). -/
noncomputable def compassDegrees (px py : ℤ) : ℝ :=
  let t := Complex.arg ⟨px, py⟩ * 180 / Real.pi
  if 0 ≤ t then t else t + 360

/-- R63: a sample is the port's value, at most 1.0. -/
def sampled (a : Sample) : ℤ := min (a.toNat : ℤ) 65536

/-- R63: whether a sample of these ports saturates. -/
def saturates (s : State) : Bool := decide (65536 < s.ainH.toNat) || decide (65536 < s.ainV.toNat)

/-- R65: `X = -2 * (h - x0)`. -/
def rawX (s : State) : ℤ := -2 * (sampled s.ainH - s.calX0.toNat)

/-- R65: `Y = 2 * (v - y0)`. -/
def rawY (s : State) : ℤ := 2 * (sampled s.ainV - s.calY0.toNat)

/-- R66: whether `1 - y²/2` or `1 - x²/2` is negative for the raw coordinate in units of 2^-16. -/
def outsideDomain (s : State) : Bool :=
  decide (2 * 65536 ^ 2 < rawX s ^ 2) || decide (2 * 65536 ^ 2 < rawY s ^ 2)

/-- R66, R67: `x' = x * sqrt(1 - y²/2)` in units of 2^-16, a negative radicand taken as 0, truncated toward zero. -/
noncomputable def mappedAxis (c other : ℤ) : ℤ :=
  truncate (c * Real.sqrt (max 0 (1 - ((other : ℝ) / 65536) ^ 2 / 2)))

/-- R67: the mapped x. -/
noncomputable def mappedX (s : State) : ℤ := mappedAxis (rawX s) (rawY s)

/-- R67: the mapped y. -/
noncomputable def mappedY (s : State) : ℤ := mappedAxis (rawY s) (rawX s)

/-- R69: `floor(sqrt(px² + py²))` in units of 2^-16, with `px` the mapped y and `py` the mapped x (R68). -/
noncomputable def magnitude0 (s : State) : ℤ := ⌊Real.sqrt ((mappedY s : ℝ) ^ 2 + (mappedX s : ℝ) ^ 2)⌋

/-- R70: below 0.1 the reading is the sentinel. -/
def Centred (s : State) : Prop := 10 * magnitude0 s < 65536

open Classical in
/-- R70, R71: the magnitude of the reading. -/
noncomputable def polarMag (s : State) : ℤ := if Centred s then 0 else magnitude0 s

open Classical in
/-- R68, R70, R71: the angle of the reading, in units of 2^-16 degree. -/
noncomputable def polarAng (s : State) : ℤ :=
  if Centred s then -65536 else ⌊compassDegrees (mappedY s) (mappedX s) * 65536⌋

open Classical in
/-- R72: the direction code of the reading, by the exact angle in degrees (R74). -/
noncomputable def directionCode (s : State) : BitVec 4 :=
  let c := compassDegrees (mappedY s) (mappedX s)
  if Centred s then 0
  else if c < 22.5 then 1
  else if c < 67.5 then 2
  else if c < 112.5 then 3
  else if c < 157.5 then 4
  else if c < 202.5 then 5
  else if c < 247.5 then 6
  else if c < 292.5 then 7
  else if c < 337.5 then 8
  else 1

/-- The state after a sampling command that maps nothing: SAT set if the sample saturates (R86). -/
def afterSample (s : State) : State :=
  { s with status := { s.status with sat := s.status.sat || saturates s } }

/-- The state after a mapping command: SAT and DOMERR set where their conditions hold (R86). -/
def afterMapping (s : State) : State :=
  { s with
    status := { s.status with sat := s.status.sat || saturates s, domerr := s.status.domerr || outsideDomain s } }

end Sys2Proof.Safety
end

