-- ==== Sys2Proof/Certificates/Slice0/Obligations.lean ====
section
/-! DEFINITION. The statements about the model, each from the numbered rules of the specification. A statement whose
conclusion is `exec i s = .next …` or `step s = .next …` gives the whole next state, so it is the frame too: what the
record update does not name is unchanged. -/

open Sys2Proof Sys2Proof.Machine Sys2Proof.Safety

/-! ## Encoding (30_encoding.md) -/

/-- R51, R52, R56, R57: every command is well formed, decodes from its own word, and from no other word. -/
def Obligations.DecodeInvertsEncode : Prop :=
  (∀ i : Instr, i.wellFormed = true ∧ decode (encode i) = .legal i) ∧
    ∀ (w : Word) (i : Instr), decode w = .legal i → w = encode i

/-- R53 to R57: each illegal word is illegal for exactly one reason, the reserved bits first. -/
def Obligations.IllegalWordsNamedByRule : Prop :=
  ∀ w : Word,
    let reserved := w.toNat / 256 ≠ 0 ∨ w.toNat / 8 % 2 ≠ 0
    let op := w.toNat / 16 % 16
    let btn := w.toNat % 8
    (decode w = .illegal .reservedBits ↔ reserved) ∧
      (decode w = .illegal .reservedOp ↔ ¬reserved ∧ 12 ≤ op) ∧
      (decode w = .illegal .buttonNotZero ↔ ¬reserved ∧ op ≤ 11 ∧ op ≠ 8 ∧ op ≠ 9 ∧ btn ≠ 0) ∧
      (decode w = .illegal .noSuchButton ↔ ¬reserved ∧ (op = 8 ∨ op = 9) ∧ 5 ≤ btn)

/-- R56: a word is legal exactly when its fields pass the three checks of a well-formed command word. -/
def Obligations.LegalIffFieldsWellFormed : Prop :=
  ∀ w : Word, (∃ i, decode w = .legal i) ↔ (Fields.ofWord w).wellFormed = true

/-- R52: words of every family, written out, decode to their commands. -/
def Obligations.ListedWordsDecode : Prop :=
  decode 0b00000000000000000000000000000000 = .legal .nop ∧
    decode 0b00000000000000000000000000010000 = .legal .init ∧
    decode 0b00000000000000000000000000100000 = .legal .raw ∧
    decode 0b00000000000000000000000001110000 = .legal .dir ∧
    decode 0b00000000000000000000000010000000 = .legal .pressedA ∧
    decode 0b00000000000000000000000010000100 = .legal .pressedStart ∧
    decode 0b00000000000000000000000010010011 = .legal .heldY ∧
    decode 0b00000000000000000000000010100000 = .legal .resetall ∧
    decode 0b00000000000000000000000010110000 = .legal .clrerr

/-! ## The step and the bus (00_scope.md R13, R14; 20_memory.md) -/

/-- R44, R108: when the next step is a word write to CMD of a word that decodes to `i`, the step is `exec i` on the
state with that step taken off, and the answer OKAY after it; and `withFetchWord` makes it the next step. -/
def Obligations.StepRunsDecodedCommand : Prop :=
  ∀ (s t : State) (w : Word) (i : Instr) (rest : List Event), decode w = .legal i →
    (s.pending = .host (.write 4 s.base w) :: rest → exec i { s with pending := rest } = .next t →
      step s = .next { t with response := .okay }) ∧
    (exec i s = .next t → step (s.withFetchWord 32 w.toNat) = .next { t with response := .okay })

/-- R44, R107: a word write to CMD of an illegal word sets STATUS.ILLEGAL, answers OKAY and changes nothing else. -/
def Obligations.IllegalWordSetsFlagOnly : Prop :=
  ∀ (s : State) (w : Word) (why : Illegal) (rest : List Event),
    s.pending = .host (.write 4 s.base w) :: rest → decode w = .illegal why →
      step s = .next
        { s with pending := rest, status := { s.status with illegal := true }, response := .okay }

/-- R14, R109: every step completes: none faults and none is refused. -/
def Obligations.EveryStepCompletes : Prop := ∀ s : State, ∃ t, step s = .next t

/-- R15, R22, R35, R41: a word read at each readable offset answers that register's value, its unused upper bits 0, and
changes nothing else. -/
def Obligations.ReadsAnswerRegisters : Prop :=
  ∀ (s : State) (off v : Nat) (rest : List Event),
    (off, v) ∈
      [(0x04, s.status.init.toNat + 2 * s.status.nocal.toNat + 4 * s.status.domerr.toNat +
          8 * s.status.illegal.toNat + 16 * s.status.sat.toNat),
       (0x08, s.resX.toNat), (0x0C, s.resY.toNat), (0x10, s.resMag.toNat), (0x14, s.resAng.toNat),
       (0x18, s.resDir.toNat), (0x1C, s.resBit.toNat), (0x20, s.calX0.toNat), (0x24, s.calY0.toNat)] →
    s.pending = .host (.read 4 (s.base + off)) :: rest →
      step s = .next { s with pending := rest, response := .readData (BitVec.ofNat 32 v) }

/-- R36, R38, R39, R42, R43, R111: in the window, an access that is not 32 bits wide or not aligned, a read of CMD, a
write of anything but CMD, and an access to a reserved offset end with BusError and change no state of the block. That an
access which starts in the window and ends past it is in the window, and so a BusError, is the model's own choice
(log 6). -/
def Obligations.BusErrorsChangeNothing : Prop :=
  ∀ (s : State) (bytes addr : Nat) (data : Word) (rest : List Event),
    s.base ≤ addr → addr < s.base + 64 →
    (bytes ≠ 4 ∨ addr % 4 ≠ 0 ∨ addr = s.base ∨ s.base + 0x28 ≤ addr →
      s.pending = .host (.read bytes addr) :: rest →
        step s = .next { s with pending := rest, response := .busError addr }) ∧
    (bytes ≠ 4 ∨ addr % 4 ≠ 0 ∨ addr ≠ s.base →
      s.pending = .host (.write bytes addr data) :: rest →
        step s = .next { s with pending := rest, response := .busError addr })

/-- R37: an access outside the window is not answered and changes nothing. That the model then shows `noResponse` is its
own choice (log 4); that an access is where its first byte is, is log 6. -/
def Obligations.OutsideWindowUnanswered : Prop :=
  ∀ (s : State) (bytes addr : Nat) (data : Word) (rest : List Event),
    (addr < s.base ∨ s.base + 64 ≤ addr) →
    (s.pending = .host (.read bytes addr) :: rest ∨ s.pending = .host (.write bytes addr data) :: rest) →
      step s = .next { s with pending := rest, response := .noResponse }

/-- R40: the byte lanes are numbered little-endian: lane `k` of a register carries bits `[8k+7:8k]`. -/
def Obligations.ByteLanesLittleEndian : Prop :=
  ∀ (s : State) (r : Reg) (v : Word), s.readReg r = some v →
    (∀ k, k < 4 → s.laneByte r k = some (BitVec.ofNat 8 (v.toNat / 2 ^ (8 * k))))

/-! ## Control commands (42_control.md) -/

/-- R102: NOP changes no state, in every state. -/
def Obligations.NopChangesNothing : Prop := ∀ s : State, exec .nop s = .next s

/-- R63, R103: INIT, in every state, captures both saturated ports as the origin, clears all latches, sets STATUS.INIT,
sets SAT if a port was above 0x10000, and changes nothing else. -/
def Obligations.InitCapturesOrigin : Prop :=
  ∀ s : State, exec .init s = .next
    { s with
      calX0 := BitVec.ofNat 17 (min s.ainH.toNat 0x10000)
      calY0 := BitVec.ofNat 17 (min s.ainV.toNat 0x10000)
      latch := 0
      status := { s.status with
        init := true
        sat := s.status.sat || decide (0x10000 < s.ainH.toNat) || decide (0x10000 < s.ainV.toNat) } }

/-- R106: CLRERR clears NOCAL, DOMERR, ILLEGAL and SAT, and changes nothing else. -/
def Obligations.ClrerrClearsStickyFlags : Prop :=
  ∀ s : State, exec .clrerr s = .next
    { s with status := { init := s.status.init, nocal := false, domerr := false, illegal := false, sat := false } }

/-- R30: PU_EN is all ones exactly when STATUS.INIT is 1. -/
def Obligations.PullUpsFollowInit : Prop :=
  ∀ (s : State) (k : Nat), k < 5 → s.puEn.getLsbD k = s.status.init

/-! ## Button commands (41_buttons.md) -/

/-- R95: PRESSED b, for the five buttons in the order of R53, in every state: RES_BIT gets LATCH[b], LATCH[b] is
cleared, every other latch and everything else is unchanged. -/
def Obligations.PressedConsumesLatch : Prop :=
  ∀ (s : State) (i : Instr) (k : Nat),
    (i, k) ∈ [(Instr.pressedA, 0), (.pressedB, 1), (.pressedX, 2), (.pressedY, 3), (.pressedStart, 4)] →
    ∃ l : Lines, exec i s = .next { s with resBit := BitVec.ofBool (s.latch.getLsbD k), latch := l } ∧
      ∀ j, j < 5 → l.getLsbD j = (s.latch.getLsbD j && j != k)

/-- R96: HELD b, for the five buttons, in every state: RES_BIT gets the inverted LEVEL[b], and nothing else changes. -/
def Obligations.HeldAnswersInvertedLevel : Prop :=
  ∀ (s : State) (i : Instr) (k : Nat),
    (i, k) ∈ [(Instr.heldA, 0), (.heldB, 1), (.heldX, 2), (.heldY, 3), (.heldStart, 4)] →
    exec i s = .next { s with resBit := BitVec.ofBool (!s.level.getLsbD k) }

/-- R97: RESETALL, in every state, clears all five latches and changes nothing else. -/
def Obligations.ResetallClearsLatches : Prop := ∀ s : State, exec .resetall s = .next { s with latch := 0 }

/-! ## Geometry commands (40_geometry.md) -/

/-- R78: with STATUS.INIT = 0 each geometry command sets NOCAL and changes nothing else: no sample, no result. -/
def Obligations.GeometryRefusedBeforeInit : Prop :=
  ∀ (s : State) (i : Instr), i ∈ [Instr.raw, .mapped, .polar, .mag, .angle, .dir] → s.status.init = false →
    exec i s = .next { s with status := { s.status with nocal := true } }

/-- R63, R65, R79: RAW, once calibrated, writes X = -2*(h - x0) and Y = 2*(v - y0) of the saturated ports, sets SAT if
a port was above 0x10000, and changes nothing else. -/
def Obligations.RawAnswersCentredSample : Prop :=
  ∀ s : State, s.status.init = true →
    exec .raw s = .next
      { s with
        resX := BitVec.ofInt 32 (-2 * (min (s.ainH.toNat : ℤ) 0x10000 - s.calX0.toNat))
        resY := BitVec.ofInt 32 (2 * (min (s.ainV.toNat : ℤ) 0x10000 - s.calY0.toNat))
        status := { s.status with
          sat := s.status.sat || decide (0x10000 < s.ainH.toNat) || decide (0x10000 < s.ainV.toNat) } }

/-- R64, R66, R67, R80: MAPPED, once calibrated, writes the source's real-valued mapping of the raw coordinate,
truncated toward zero, sets SAT and DOMERR where their conditions hold, and changes nothing else. -/
def Obligations.MappedIsTruncatedRealMapping : Prop :=
  ∀ s : State, s.status.init = true →
    exec .mapped s = .next
      { afterMapping s with resX := BitVec.ofInt 32 (mappedX s), resY := BitVec.ofInt 32 (mappedY s) }

/-- R64, R68 to R71, R81: POLAR, once calibrated, writes the exact magnitude and compass angle of the mapped
coordinate, rounded down, or the sentinel below 0.1, both from one sample, and changes nothing else but SAT and
DOMERR. -/
def Obligations.PolarIsExactReading : Prop :=
  ∀ s : State, s.status.init = true →
    exec .polar s = .next
      { afterMapping s with resMag := BitVec.ofInt 32 (polarMag s), resAng := BitVec.ofInt 32 (polarAng s) }

/-- R69, R70, R82: MAG, once calibrated, writes the exact magnitude, rounded down, or 0 below 0.1; RES_ANG and
everything else but SAT and DOMERR is unchanged. -/
def Obligations.MagIsExactMagnitude : Prop :=
  ∀ s : State, s.status.init = true →
    exec .mag s = .next { afterMapping s with resMag := BitVec.ofInt 32 (polarMag s) }

/-- R68, R70, R71, R83: ANGLE, once calibrated, writes the exact compass angle, rounded down, or the sentinel; RES_MAG
and everything else but SAT and DOMERR is unchanged. -/
def Obligations.AngleIsExactCompassAngle : Prop :=
  ∀ s : State, s.status.init = true →
    exec .angle s = .next { afterMapping s with resAng := BitVec.ofInt 32 (polarAng s) }

/-- R72, R74, R84: DIR, once calibrated, writes the code of the 45-degree sector in which the exact compass angle lies,
or CENTRE below 0.1; every other result and everything else but SAT and DOMERR is unchanged. -/
def Obligations.DirIsExactSector : Prop :=
  ∀ s : State, s.status.init = true → exec .dir s = .next { afterMapping s with resDir := directionCode s }

/-! ## Pipeline stages (40_geometry.md) -/

/-- R71: `angleUnits` is the exact compass angle in units of 2^-16 degree, rounded down, for every vector but zero. -/
def Obligations.AngleUnitsIsExactFloor : Prop :=
  ∀ v : Point, v ≠ ⟨0, 0⟩ → (angleUnits v : ℤ) = ⌊compassDegrees v.x v.y * 65536⌋

/-- R74: the discretizer on the exact angle is the integer-only sector test, for every vector but zero. -/
def Obligations.DiscretizerAgreesWithSector : Prop :=
  ∀ v : Point, v ≠ ⟨0, 0⟩ → discretize (angleUnits v) = sector v

/-- R66: DOMERR's condition holds exactly when an axis is at least 92682 away from zero. -/
def Obligations.DomainErrorBound : Prop :=
  ∀ p : Point, domainError p = true ↔ 92682 ≤ p.x.natAbs ∨ 92682 ≤ p.y.natAbs

/-- R75 (a), (b), (d), (e): the mapper is odd in each input; moves no axis away from zero; keeps points of the unit square
in the unit disk; and maps (0, 0) to (0, 0). -/
def Obligations.MapperProperties : Prop :=
  (∀ x y : ℤ,
    squareToCircle ⟨-x, y⟩ = ⟨-(squareToCircle ⟨x, y⟩).x, (squareToCircle ⟨x, y⟩).y⟩ ∧
    squareToCircle ⟨x, -y⟩ = ⟨(squareToCircle ⟨x, y⟩).x, -(squareToCircle ⟨x, y⟩).y⟩) ∧
  (∀ p : Point, (squareToCircle p).x.natAbs ≤ p.x.natAbs ∧ (squareToCircle p).y.natAbs ≤ p.y.natAbs) ∧
  (∀ p : Point, p.x.natAbs ≤ 65536 → p.y.natAbs ≤ 65536 →
    (squareToCircle p).x ^ 2 + (squareToCircle p).y ^ 2 ≤ 65536 ^ 2) ∧
  squareToCircle ⟨0, 0⟩ = ⟨0, 0⟩

/-- R66, R67, against the words of R75 (c) (log 9): an axis that is 0, or whose radicand is clamped to 0, maps to 0, as R75
(c) says; but not only then: the raw coordinate (2, 92680) has a positive radicand and maps to x = 0. -/
def Obligations.MappedAxisZeroCases : Prop :=
  (∀ c o : ℤ, c = 0 ∨ radicand o ≤ 0 → mapAxis c o = 0) ∧ 0 < radicand 92680 ∧ mapAxis 2 92680 = 0

/-- R70, R76: a reading is the sentinel exactly when the magnitude before the floor is at most 6553; otherwise its
magnitude is at least 6554 and its angle in [0, 360) degrees. -/
def Obligations.NoiseFloorSplitsReadings : Prop :=
  ∀ v : Point,
    (magnitude v ≤ 6553 → polarOf v = ⟨0, -65536⟩) ∧
    (6554 ≤ magnitude v → (polarOf v).mag = magnitude v ∧ 0 ≤ (polarOf v).ang ∧ (polarOf v).ang < 23592960)

/-- Note to V30 to V38 (95_test_vectors.md), from R66 and R67: where DOMERR's condition holds, the reading is the sentinel
or its angle is a multiple of 90 degrees. -/
def Obligations.DomainErrorAnglesAreAxes : Prop :=
  ∀ p : Point, domainError p = true →
    (polarOf (polarFrame (squareToCircle p))).ang ∈ [(-65536 : ℤ), 0, 90 * 65536, 180 * 65536, 270 * 65536]

/-- R89: negating the mapped x swaps east and west, negating the mapped y swaps north and south, in the direction of the
reading; the magnitude is unchanged. -/
def Obligations.DirectionSymmetry : Prop :=
  let direction : ℤ → ℤ → BitVec 4 := fun xm ym => (discretize (polarOf (polarFrame ⟨xm, ym⟩)).ang).code
  let eastWest : List (ℕ × ℕ) := [(0, 0), (1, 1), (2, 8), (3, 7), (4, 6), (5, 5), (6, 4), (7, 3), (8, 2)]
  let northSouth : List (ℕ × ℕ) := [(0, 0), (1, 5), (2, 4), (3, 3), (4, 2), (5, 1), (6, 8), (7, 7), (8, 6)]
  ∀ xm ym : ℤ,
    ((direction xm ym).toNat, (direction (-xm) ym).toNat) ∈ eastWest ∧
    ((direction xm ym).toNat, (direction xm (-ym)).toNat) ∈ northSouth ∧
    (polarOf (polarFrame ⟨-xm, ym⟩)).mag = (polarOf (polarFrame ⟨xm, ym⟩)).mag ∧
    (polarOf (polarFrame ⟨xm, -ym⟩)).mag = (polarOf (polarFrame ⟨xm, ym⟩)).mag

/-! ## The environment's steps (41_buttons.md; 70_reset_and_hazards.md) -/

/-- R91, R92, R94: PIN(b, l): LEVEL[b] becomes l; LATCH[b] becomes 1 on a falling edge with STATUS.INIT = 1 and keeps its
value otherwise; no other button's bit and nothing else changes. -/
def Obligations.PinSetsLevelAndArmedEdge : Prop :=
  ∀ (s : State) (b : Button) (l : Bool) (rest : List Event), s.pending = .pin b l :: rest →
    ∃ level' latch' : Lines, step s = .next { s with pending := rest, level := level', latch := latch' } ∧
      ∀ c : Button,
        lineBit level' c = (if c = b then l else lineBit s.level c) ∧
        lineBit latch' c =
          (if c = b ∧ lineBit s.level b = true ∧ l = false ∧ s.status.init = true then true else lineBit s.latch c)

/-- R125, R126: RESET clears every register and latch and takes LEVEL from the pins. That BASE, the ports and the steps to
come stay, and the answer is forgotten, is the model's choice (logs 1 to 4). -/
def Obligations.ResetClearsEverything : Prop :=
  ∀ (s : State) (btnIn : Lines) (rest : List Event), s.pending = .reset btnIn :: rest →
    step s = .next
      { status := { init := false, nocal := false, domerr := false, illegal := false, sat := false }
        resX := 0, resY := 0, resMag := 0, resAng := 0, resDir := 0, resBit := 0, calX0 := 0, calY0 := 0
        latch := 0, level := btnIn
        ainH := s.ainH, ainV := s.ainV, basePage := s.basePage, pending := rest, response := .noResponse }

/-- R15, R25, R127: after reset every register reads 0, every latch is 0, and PU_EN is 0. (LEVEL is a draw, R126: this
says nothing of it.) -/
def Obligations.ResetStateValues : Prop :=
  (∀ r : Reg, r ≠ .cmd → State.reset.readReg r = some 0) ∧ (∀ b : Button, lineBit State.reset.latch b = false) ∧
    State.reset.puEn = 0

/-- The model's form of R28 and of the `env` line of R61 (log 1): ANALOG sets what the ports present, and nothing else. -/
def Obligations.AnalogSetsPorts : Prop :=
  ∀ (s : State) (h v : Sample) (rest : List Event), s.pending = .analog h v :: rest →
    step s = .next { s with pending := rest, ainH := h, ainV := v }

/-- R99, R103: when PRESSED b, RESETALL or INIT and a falling edge of b fall in one clock cycle, the command comes first
and the edge second. The edge is latched: armed before the cycle, or by the INIT in it. PRESSED b answers the latch from
before the edge, and the other latches are as the command leaves them. -/
def Obligations.EdgeWinsOverClear : Prop :=
  ∀ (s : State) (b : Button) (i : Instr) (rest : List Event),
    i ∈ [Instr.pressed b, .resetall, .init] → (s.status.init = true ∨ i = .init) → lineBit s.level b = true →
    s.pending = Cycle.steps ⟨some (.write 4 s.base (encode i)), [(b, false)], none⟩ ++ rest →
    ∃ t, Host.Core.run core 2 s = .next t ∧ t.pending = rest ∧
      (i = .pressed b → t.resBit = BitVec.ofBool (lineBit s.latch b)) ∧
      ∀ c : Button, lineBit t.latch c =
        (if c = b then true else if i = .pressed b then lineBit s.latch c else false)

/-- R117: RESET takes effect last in its cycle: whatever else falls in the cycle, the registers, latches and levels
afterwards are those of reset, LEVEL being what the pins present. That the ports, BASE and the steps to come stay, and the
answer is forgotten, also that of a host access in the cycle, is the model's choice (logs 1 to 4 and 13). -/
def Obligations.ResetWinsItsCycle : Prop :=
  ∀ (s : State) (c : Cycle) (btnIn : Lines) (rest : List Event), c.reset = some btnIn →
    s.pending = c.steps ++ rest →
    Host.Core.run core c.steps.length s = .next
      { State.reset with
        level := btnIn, ainH := s.ainH, ainV := s.ainV, basePage := s.basePage, pending := rest }

/-- R60: the assembler gives exactly the word of R52 for every mnemonic; for PRESSED and HELD with every button, by each
spelling of its name in upper and lower case and by its number. -/
def Obligations.MnemonicsAssembleToTheirWords : Prop :=
  (∀ m w, (m, w) ∈
      ([("NOP", 0x00), ("INIT", 0x10), ("RAW", 0x20), ("MAPPED", 0x30), ("POLAR", 0x40), ("MAG", 0x50),
        ("ANGLE", 0x60), ("DIR", 0x70), ("RESETALL", 0xA0), ("CLRERR", 0xB0)] : List (String × Word)) →
    (assemble m none).map encode = some w) ∧
  ∀ name number k, (name, number, k) ∈
      ([("A", "0", 0), ("B", "1", 1), ("X", "2", 2), ("Y", "3", 3), ("START", "4", 4)] : List (String × String × ℕ)) →
    ∀ t : String, t.toUpper = name ∨ t = number →
      (assemble "PRESSED" (some t)).map encode = some (BitVec.ofNat 32 (0x80 + k)) ∧
      (assemble "HELD" (some t)).map encode = some (BitVec.ofNat 32 (0x90 + k))

/-! ## Rules over every step -/

/-- R17: nothing clears a sticky flag but CLRERR or RESET. -/
def Obligations.StickyFlagsStay : Prop :=
  ∀ (s t : State) (f : StickyFlag), step s = .next t → s.status.flag f = true →
    ¬Next s (command s.base .clrerr) → ¬NextIsReset s → t.status.flag f = true

/-- R17 to R21, R86, R112: a sticky flag is set only by its own condition: NOCAL by a geometry command before INIT,
DOMERR by a mapping command outside the domain, ILLEGAL by an illegal word, SAT by a sampling command whose port is above
0x10000. -/
def Obligations.FlagsSetOnlyByTheirConditions : Prop :=
  ∀ s t : State, step s = .next t →
    (s.status.nocal = false → t.status.nocal = true →
      s.status.init = false ∧
        ∃ i, i ∈ [Instr.raw, .mapped, .polar, .mag, .angle, .dir] ∧ Next s (command s.base i)) ∧
    (s.status.domerr = false → t.status.domerr = true →
      s.status.init = true ∧ outsideDomain s = true ∧
        ∃ i, i ∈ [Instr.mapped, .polar, .mag, .angle, .dir] ∧ Next s (command s.base i)) ∧
    (s.status.illegal = false → t.status.illegal = true →
      ∃ w why, decode w = .illegal why ∧ Next s (.host (.write 4 s.base w))) ∧
    (s.status.sat = false → t.status.sat = true →
      saturates s = true ∧
        (Next s (command s.base .init) ∨
          s.status.init = true ∧
            ∃ i, i ∈ [Instr.raw, .mapped, .polar, .mag, .angle, .dir] ∧ Next s (command s.base i)))

/-- R16: only INIT sets STATUS.INIT, and only RESET clears it. -/
def Obligations.InitBitSetAndClearedOnlySo : Prop :=
  ∀ s t : State, step s = .next t →
    (s.status.init = false → t.status.init = true → Next s (command s.base .init)) ∧
    (s.status.init = true → t.status.init = false → NextIsReset s)

/-- R23, R105: only INIT writes the calibration origin, and RESET clears it. -/
def Obligations.OriginChangesOnlyAtInitOrReset : Prop :=
  ∀ s t : State, step s = .next t → (t.calX0 ≠ s.calX0 ∨ t.calY0 ≠ s.calY0) →
    Next s (command s.base .init) ∨ NextIsReset s

/-- R26: LEVEL[b] changes only in a PIN step of button b and in RESET. -/
def Obligations.LevelChangesOnlyAtPinOrReset : Prop :=
  ∀ (s t : State) (b : Button), step s = .next t → lineBit t.level b ≠ lineBit s.level b →
    (∃ l, Next s (.pin b l)) ∨ NextIsReset s

/-- R25, R92: LATCH[b] is set only by an armed falling edge of button b. -/
def Obligations.LatchSetOnlyByArmedEdge : Prop :=
  ∀ (s t : State) (b : Button), step s = .next t → lineBit s.latch b = false → lineBit t.latch b = true →
    Next s (.pin b false) ∧ lineBit s.level b = true ∧ s.status.init = true

/-- R25, R114: LATCH[b] is cleared only by PRESSED b, RESETALL, INIT and RESET. -/
def Obligations.LatchClearedOnlySo : Prop :=
  ∀ (s t : State) (b : Button), step s = .next t → lineBit s.latch b = true → lineBit t.latch b = false →
    Next s (command s.base (.pressed b)) ∨ Next s (command s.base .resetall) ∨ Next s (command s.base .init) ∨
      NextIsReset s

/-- R24: a result register is written only by the commands its rule names, and cleared by RESET. -/
def Obligations.ResultsWrittenOnlyByTheirCommands : Prop :=
  ∀ s t : State, step s = .next t → ¬NextIsReset s →
    ((t.resX ≠ s.resX ∨ t.resY ≠ s.resY) → ∃ i, i ∈ [Instr.raw, .mapped] ∧ Next s (command s.base i)) ∧
    (t.resMag ≠ s.resMag → ∃ i, i ∈ [Instr.polar, .mag] ∧ Next s (command s.base i)) ∧
    (t.resAng ≠ s.resAng → ∃ i, i ∈ [Instr.polar, .angle] ∧ Next s (command s.base i)) ∧
    (t.resDir ≠ s.resDir → Next s (command s.base .dir)) ∧
    (t.resBit ≠ s.resBit → ∃ b, Next s (command s.base (.pressed b)) ∨ Next s (command s.base (.held b)))

/-- R17: no sticky flag changes how a command executes: with the flags taken away before it, a command does the same, but
for the flags. -/
def Obligations.FlagsAreReportsOnly : Prop :=
  ∀ (i : Instr) (s s' t t' : State), withoutFlags s = withoutFlags s' → exec i s = .next t → exec i s' = .next t' →
    withoutFlags t = withoutFlags t'

/-- R85, R88: a geometry command's results and the flags it sets depend only on STATUS, the ports and the origin: two
states that agree on these get the same values in the registers it writes, and the same STATUS. -/
def Obligations.GeometryDependsOnSampleAndOrigin : Prop :=
  ∀ (s s' t t' : State), s.status = s'.status → s.ainH = s'.ainH → s.ainV = s'.ainV → s.calX0 = s'.calX0 →
    s.calY0 = s'.calY0 → s.status.init = true →
    (∀ i, i ∈ [Instr.raw, .mapped, .polar, .mag, .angle, .dir] → exec i s = .next t → exec i s' = .next t' →
      t.status = t'.status) ∧
    (∀ i, i ∈ [Instr.raw, .mapped] → exec i s = .next t → exec i s' = .next t' → t.resX = t'.resX ∧ t.resY = t'.resY) ∧
    (∀ i, i ∈ [Instr.polar, .mag] → exec i s = .next t → exec i s' = .next t' → t.resMag = t'.resMag) ∧
    (∀ i, i ∈ [Instr.polar, .angle] → exec i s = .next t → exec i s' = .next t' → t.resAng = t'.resAng) ∧
    (exec .dir s = .next t → exec .dir s' = .next t' → t.resDir = t'.resDir)

/-! ## Invariants of every step -/

/-- R23, R72, R73: every step keeps every register in its range. -/
def Obligations.StepKeepsRanges : Prop :=
  ∀ s t : State, InRange s → step s = .next t → InRange t

/-- R78, R92, R127: every step keeps the rule that before the first INIT nothing but NOCAL, ILLEGAL, RES_BIT and LEVEL
has left its reset value. -/
def Obligations.StepKeepsUntouchedBeforeInit : Prop :=
  ∀ s t : State, UntouchedBeforeInit s → step s = .next t → UntouchedBeforeInit t

/-- Both invariants hold after reset. -/
def Obligations.ResetStateIsLegal : Prop := InRange State.reset ∧ UntouchedBeforeInit State.reset

/-! ## Rules over runs, from any state -/

/-- R92, R95, R100, no double report: while LATCH[b] is 0 and no armed falling edge of b is among the next `k` steps (a
PIN(b, 0) among them finds LEVEL[b] 0 already, or STATUS.INIT 0), LATCH[b] stays 0, so that a PRESSED b after them
answers 0. -/
def Obligations.NoReportWithoutEdge : Prop :=
  ∀ (k : Nat) (s t : State) (b : Button), lineBit s.latch b = false →
    (∀ (j : Nat) (u : State), j < k → Host.Core.run core j s = .next u → Next u (.pin b false) →
      lineBit u.level b = false ∨ u.status.init = false) →
    Host.Core.run core k s = .next t →
    lineBit t.latch b = false ∧ exec (.pressed b) t = .next { t with resBit := 0 }

/-- R47, R92, R100, no lost edge: an armed falling edge of b is still latched after any steps that hold no PRESSED b, no
RESETALL, no INIT and no RESET, so that a PRESSED b after them answers 1. -/
def Obligations.NoEdgeLost : Prop :=
  ∀ (k : Nat) (s t : State) (b : Button) (rest : List Event),
    s.pending = .pin b false :: rest → lineBit s.level b = true → s.status.init = true →
    (∀ e ∈ rest.take k,
      e ≠ command s.base (.pressed b) ∧ e ≠ command s.base .resetall ∧ e ≠ command s.base .init ∧
        ∀ btnIn, e ≠ .reset btnIn) →
    Host.Core.run core (k + 1) s = .next t →
    ∃ u, exec (.pressed b) t = .next u ∧ u.resBit = 1
end

