-- ==== Sys2Proof/Laws/Arith.lean ====
section
/-! SUPPORT. What the integer primitives compute: `isqrt` is the greatest q with q*q <= n (00_scope.md R9), and the
rounded divisions by a power of two keep the sign of what they divide. -/

namespace Sys2Proof.Laws

open Sys2Proof.Machine

theorem isqrtFuel_spec (fuel n : Nat) (h : n < 4 ^ fuel) :
    isqrtFuel fuel n * isqrtFuel fuel n ≤ n ∧ n < (isqrtFuel fuel n + 1) * (isqrtFuel fuel n + 1) := by
  induction fuel generalizing n with
  | zero => simp [isqrtFuel] at *; omega
  | succ k ih =>
    obtain ⟨lo, hi⟩ := ih (n / 4) (by rw [pow_succ] at h; omega)
    have hdiv : 4 * (n / 4) ≤ n ∧ n < 4 * (n / 4) + 4 := by omega
    simp only [isqrtFuel]
    generalize isqrtFuel k (n / 4) = r at *
    split
    · rename_i hr
      exact ⟨hr, by nlinarith⟩
    · rename_i hr
      exact ⟨by nlinarith, by omega⟩

/-- R9: `isqrt n` is the greatest q with q*q <= n, that is the library's exact integer square root. -/
theorem isqrt_eq_sqrt (n : Nat) : isqrt n = Nat.sqrt n := by
  have hn : n < 4 ^ (n.log2 + 1) := by
    calc n < 2 ^ (n.log2 + 1) := Nat.lt_log2_self
      _ ≤ 4 ^ (n.log2 + 1) := Nat.pow_le_pow_left (by norm_num) _
  obtain ⟨lo, hi⟩ := isqrtFuel_spec _ n hn
  exact Nat.eq_sqrt.2 ⟨lo, hi⟩

theorem isqrt_zero : isqrt 0 = 0 := by rw [isqrt_eq_sqrt, Nat.sqrt_zero]

theorem isqrt_sq_le (n : Nat) : isqrt n * isqrt n ≤ n := by rw [isqrt_eq_sqrt]; exact Nat.sqrt_le n

theorem isqrt_le_of_le_sq {n m : Nat} (h : n ≤ m * m) : isqrt n ≤ m := by
  rw [isqrt_eq_sqrt]; exact (Nat.sqrt_le_sqrt h).trans_eq (Nat.sqrt_eq m)

theorem isqrt_mul_self (m : Nat) : isqrt (m * m) = m := by rw [isqrt_eq_sqrt, Nat.sqrt_eq]

theorem divFloor_zero (v : Int) : divFloor v 0 = v := by simp [divFloor]

theorem divCeil_zero (v : Int) : divCeil v 0 = v := by simp [divCeil]

/-- `divFloor` rounds down and keeps the sign. -/
theorem divFloor_spec (v : Int) (k : Nat) :
    divFloor v k * ((2 ^ k : Nat) : Int) ≤ v ∧ (0 ≤ v → 0 ≤ divFloor v k) ∧ (v < 0 → divFloor v k < 0) := by
  have hp : (0 : Int) < ((2 ^ k : Nat) : Int) := by positivity
  refine ⟨Int.ediv_mul_le _ hp.ne', fun h => Int.ediv_nonneg h hp.le, fun h => Int.ediv_neg_of_neg_of_pos h hp⟩

/-- `divCeil` rounds up and keeps the sign. -/
theorem divCeil_spec (v : Int) (k : Nat) :
    v ≤ divCeil v k * ((2 ^ k : Nat) : Int) ∧ (v ≤ 0 → divCeil v k ≤ 0) ∧ (0 < v → 0 < divCeil v k) := by
  obtain ⟨h1, h2, h3⟩ := divFloor_spec (-v) k
  have : divCeil v k = -divFloor (-v) k := rfl
  rw [this]
  refine ⟨by linarith, fun h => ?_, fun h => ?_⟩
  · have := h2 (by omega); omega
  · have := h3 (by omega); omega

end Sys2Proof.Laws
end

