-- ==== Sys2Proof/Laws/Angle.lean ====
section
/-! SUPPORT. What `angleUnits` computes: a vector that stands at `t` turns, 0 <= t < 1, has the angle
`floor(360 * 65536 * t)`, exactly (40_geometry.md R71). -/

namespace Sys2Proof.Laws

open Sys2Proof.Machine Real

/-- The vector stands at `t` full turns from the positive x axis, counter-clockwise. -/
def AtTurn (v : Point) (t : ℝ) : Prop :=
  ∃ r : ℝ, 0 < r ∧ (v.x : ℝ) = r * cos (2 * π * t) ∧ (v.y : ℝ) = r * sin (2 * π * t)

theorem AtTurn.mul {v w : Point} {s t : ℝ} (hv : AtTurn v s) (hw : AtTurn w t) : AtTurn (v.mul w) (s + t) := by
  obtain ⟨r, hr, hx, hy⟩ := hv
  obtain ⟨q, hq, hx', hy'⟩ := hw
  refine ⟨r * q, mul_pos hr hq, ?_, ?_⟩
  · rw [mul_add, cos_add]; simp only [Point.mul]; push_cast; rw [hx, hy, hx', hy']; ring
  · rw [mul_add, sin_add]; simp only [Point.mul]; push_cast; rw [hx, hy, hx', hy']; ring

theorem atTurn_add_int {v : Point} {t : ℝ} (m : ℤ) : AtTurn v (t + m) ↔ AtTurn v t := by
  have : 2 * π * (t + m) = 2 * π * t + m * (2 * π) := by ring
  simp only [AtTurn, this, cos_add_int_mul_two_pi, sin_add_int_mul_two_pi]

theorem AtTurn.fract {v : Point} {t : ℝ} (h : AtTurn v t) : AtTurn v (Int.fract t) := by
  rw [← atTurn_add_int ⌊t⌋, Int.fract_add_floor]; exact h

theorem AtTurn.ne_zero {v : Point} {t : ℝ} (h : AtTurn v t) : v ≠ ⟨0, 0⟩ := by
  rintro rfl
  obtain ⟨r, hr, hx, hy⟩ := h
  have := sin_sq_add_cos_sq (2 * π * t)
  simp only [Int.cast_zero, zero_eq_mul, hr.ne', false_or] at hx hy
  rw [hx, hy] at this; norm_num at this

/-- Every vector but the zero vector stands somewhere in [0, 1). -/
theorem exists_atTurn {v : Point} (h : v ≠ ⟨0, 0⟩) : ∃ t : ℝ, 0 ≤ t ∧ t < 1 ∧ AtTurn v t := by
  let z : ℂ := ⟨v.x, v.y⟩
  have hz : z ≠ 0 := by
    intro h0
    have hx := congrArg Complex.re h0
    have hy := congrArg Complex.im h0
    simp only [Complex.zero_re, Complex.zero_im, Int.cast_eq_zero, z] at hx hy
    exact h (by cases v; simp_all)
  have key : AtTurn v (z.arg / (2 * π)) := by
    refine ⟨‖z‖, norm_pos_iff.2 hz, ?_, ?_⟩ <;> rw [mul_div_cancel₀ _ (by positivity)]
    · exact (Complex.norm_mul_cos_arg z).symm
    · exact (Complex.norm_mul_sin_arg z).symm
  exact ⟨_, Int.fract_nonneg _, Int.fract_lt_one _, key.fract⟩

/-- A vector's turns are determined up to whole turns. -/
theorem AtTurn.unique {v : Point} {s t : ℝ} (hs : AtTurn v s) (ht : AtTurn v t) : ∃ m : ℤ, s = t + m := by
  obtain ⟨r, hr, hx, hy⟩ := hs
  obtain ⟨q, hq, hx', hy'⟩ := ht
  have hrq : r = q := by
    have h1 := sin_sq_add_cos_sq (2 * π * s)
    have h2 := sin_sq_add_cos_sq (2 * π * t)
    have : r ^ 2 = q ^ 2 := by
      calc r ^ 2 = (r * cos (2 * π * s)) ^ 2 + (r * sin (2 * π * s)) ^ 2 := by linear_combination (-(r ^ 2)) * h1
        _ = (q * cos (2 * π * t)) ^ 2 + (q * sin (2 * π * t)) ^ 2 := by rw [← hx, ← hy, hx', hy']
        _ = q ^ 2 := by linear_combination q ^ 2 * h2
    exact (pow_left_inj₀ hr.le hq.le two_ne_zero).1 this
  subst hrq
  have hc := mul_left_cancel₀ hr.ne' (hx.symm.trans hx')
  have hsn := mul_left_cancel₀ hr.ne' (hy.symm.trans hy')
  have hcos : cos (2 * π * s - 2 * π * t) = 1 := by
    rw [cos_sub, hc, hsn]; linear_combination sin_sq_add_cos_sq (2 * π * t)
  obtain ⟨m, hm⟩ := (cos_eq_one_iff _).1 hcos
  refine ⟨m, ?_⟩
  have h2 : (2 * π) ≠ 0 := by positivity
  have : 2 * π * (s - (t + m)) = 0 := by linear_combination -hm
  rcases mul_eq_zero.1 this with h | h
  · exact absurd h h2
  · linarith

/-- The upper half plane is the first half turn. -/
theorem AtTurn.upper_iff {v : Point} {t : ℝ} (h : AtTurn v t) : v.upper = true ↔ Int.fract t < 1 / 2 := by
  obtain ⟨r, hr, hx, hy⟩ := h.fract
  have h0 := Int.fract_nonneg t
  have h1 := Int.fract_lt_one t
  generalize Int.fract t = f at *
  have hpi := pi_pos
  simp only [Point.upper, Bool.or_eq_true, Bool.and_eq_true, decide_eq_true_eq]
  rw [← Int.cast_pos (R := ℝ), ← Int.cast_nonneg_iff (R := ℝ), ← Int.cast_eq_zero (α := ℝ), hx, hy]
  constructor
  · intro hu
    by_contra hf
    have hf : 1 / 2 ≤ f := not_lt.1 hf
    have e1 : sin (2 * π * f) = -sin (2 * π * f - π) := by rw [sin_sub_pi]; ring
    have e2 : cos (2 * π * f) = -cos (2 * π * f - π) := by rw [cos_sub_pi]; ring
    rcases hf.eq_or_lt with hf | hf
    · subst hf
      have : 2 * π * (1 / 2) = π := by ring
      rw [this] at hu; simp at hu; linarith
    · have : 0 < sin (2 * π * f - π) := sin_pos_of_pos_of_lt_pi (by nlinarith) (by nlinarith)
      rw [e1] at hu
      rcases hu with hu | ⟨hu, -⟩
      · nlinarith
      · nlinarith
  · intro hf
    rcases h0.eq_or_lt with h0 | h0
    · subst h0; right; simp [hr.le]
    · left; exact mul_pos hr (sin_pos_of_pos_of_lt_pi (by positivity) (by nlinarith))

/-- Two vectors less than a quarter turn apart: the one stands `d` turns from the other, and the sign of `d` is the
sign of the cross product. -/
theorem AtTurn.near {v u : Point} {t : ℝ} (h : AtTurn v t) (hd : 0 < v.dot u) :
    ∃ d : ℝ, -(1 / 4) < d ∧ d < 1 / 4 ∧ AtTurn u (t + d) ∧ (0 ≤ v.cross u → 0 ≤ d) ∧ (v.cross u ≤ 0 → d ≤ 0) := by
  obtain ⟨r, hr, hx, hy⟩ := h
  have hdR : (0 : ℝ) < v.x * u.x + v.y * u.y := by exact_mod_cast hd
  set q : ℝ := √((u.x : ℝ) ^ 2 + (u.y : ℝ) ^ 2) with hq
  have hqq : q ^ 2 = (u.x : ℝ) ^ 2 + (u.y : ℝ) ^ 2 := Real.sq_sqrt (by positivity)
  have hq0 : 0 < q := by
    rcases (Real.sqrt_nonneg ((u.x : ℝ) ^ 2 + (u.y : ℝ) ^ 2)).lt_or_eq with h | h
    · exact h
    · rw [← hq] at h; rw [← h] at hqq
      have h1 : (u.x : ℝ) = 0 := by nlinarith [sq_nonneg (u.x : ℝ), sq_nonneg (u.y : ℝ)]
      have h2 : (u.y : ℝ) = 0 := by nlinarith [sq_nonneg (u.x : ℝ), sq_nonneg (u.y : ℝ)]
      rw [h1, h2] at hdR; simp at hdR
  have hrr : r ^ 2 = (v.x : ℝ) ^ 2 + (v.y : ℝ) ^ 2 := by
    rw [hx, hy]; linear_combination (-(r ^ 2)) * sin_sq_add_cos_sq (2 * π * t)
  set s : ℝ := (v.x * u.y - v.y * u.x) / (r * q) with hs
  set c : ℝ := (v.x * u.x + v.y * u.y) / (r * q) with hc
  have hrq : 0 < r * q := mul_pos hr hq0
  have hcs : s ^ 2 + c ^ 2 = 1 := by
    rw [hs, hc, div_pow, div_pow, ← add_div, div_eq_one_iff_eq (by positivity), mul_pow, hrr, hqq]; ring
  have hc0 : 0 < c := div_pos hdR hrq
  have hs1 : -1 < s := by nlinarith
  have hs2 : s < 1 := by nlinarith
  have hpi := pi_pos
  have hcos : cos (arcsin s) = c := by
    rw [cos_arcsin]; rw [show 1 - s ^ 2 = c ^ 2 by linarith]; exact Real.sqrt_sq hc0.le
  have hsin : sin (arcsin s) = s := sin_arcsin hs1.le hs2.le
  have ha1 : -(π / 2) < arcsin s := by rw [neg_pi_div_two_lt_arcsin]; exact hs1
  have ha2 : arcsin s < π / 2 := by rw [arcsin_lt_pi_div_two]; exact hs2
  have ht : 2 * π * (t + arcsin s / (2 * π)) = 2 * π * t + arcsin s := by field_simp
  refine ⟨arcsin s / (2 * π), ?_, ?_, ⟨q, hq0, ?_, ?_⟩, ?_, ?_⟩
  · rw [lt_div_iff₀ (by positivity)]; linarith
  · rw [div_lt_iff₀ (by positivity)]; linarith
  · rw [ht, cos_add, hcos, hsin]
    have : r * (q * (cos (2 * π * t) * c - sin (2 * π * t) * s)) = r * u.x := by
      calc _ = q * ((r * cos (2 * π * t)) * c - (r * sin (2 * π * t)) * s) := by ring
        _ = q * (v.x * c - v.y * s) := by rw [← hx, ← hy]
        _ = (v.x * (v.x * u.x + v.y * u.y) - v.y * (v.x * u.y - v.y * u.x)) / r := by rw [hs, hc]; field_simp
        _ = r * u.x := by rw [div_eq_iff hr.ne']; linear_combination (-(u.x : ℝ)) * hrr
    exact (mul_left_cancel₀ hr.ne' this).symm
  · rw [ht, sin_add, hcos, hsin]
    have : r * (q * (sin (2 * π * t) * c + cos (2 * π * t) * s)) = r * u.y := by
      calc _ = q * ((r * sin (2 * π * t)) * c + (r * cos (2 * π * t)) * s) := by ring
        _ = q * (v.y * c + v.x * s) := by rw [← hx, ← hy]
        _ = (v.y * (v.x * u.x + v.y * u.y) + v.x * (v.x * u.y - v.y * u.x)) / r := by rw [hs, hc]; field_simp
        _ = r * u.y := by rw [div_eq_iff hr.ne']; linear_combination (-(u.y : ℝ)) * hrr
    exact (mul_left_cancel₀ hr.ne' this).symm
  · intro h
    have : (0 : ℝ) ≤ v.x * u.y - v.y * u.x := by exact_mod_cast h
    exact div_nonneg (arcsin_nonneg.2 (div_nonneg this hrq.le)) (by positivity)
  · intro h
    have : (v.x * u.y - v.y * u.x : ℝ) ≤ 0 := by exact_mod_cast h
    exact div_nonpos_of_nonpos_of_nonneg (arcsin_nonpos.2 (div_nonpos_of_nonpos_of_nonneg this hrq.le)) (by positivity)

theorem divFloor_sign (v : Int) (k : Nat) : 0 ≤ v * divFloor v k ∧ (divFloor v k ≠ 0 → 0 < v * divFloor v k) := by
  obtain ⟨h1, h2, h3⟩ := divFloor_spec v k
  have hp : (0 : Int) < ((2 ^ k : Nat) : Int) := by positivity
  rcases lt_trichotomy v 0 with h | rfl | h
  · have := mul_pos_of_neg_of_neg h (h3 h); exact ⟨this.le, fun _ => this⟩
  · have : divFloor 0 k ≤ 0 := by nlinarith
    exact ⟨by simp, fun hne => absurd (le_antisymm this (h2 le_rfl)) hne⟩
  · exact ⟨mul_nonneg h.le (h2 h.le), fun hne => mul_pos h (lt_of_le_of_ne (h2 h.le) hne.symm)⟩

theorem divCeil_sign (v : Int) (k : Nat) : 0 ≤ v * divCeil v k ∧ (divCeil v k ≠ 0 → 0 < v * divCeil v k) := by
  have h := divFloor_sign (-v) k
  have e : v * divCeil v k = -v * divFloor (-v) k := by rw [show divCeil v k = -divFloor (-v) k from rfl]; ring
  rw [e, show divCeil v k = -divFloor (-v) k from rfl]
  exact ⟨h.1, fun hne => h.2 (by simpa using hne)⟩

theorem dot_pos_of_signs {v u : Point} (hx : 0 ≤ v.x * u.x ∧ (u.x ≠ 0 → 0 < v.x * u.x))
    (hy : 0 ≤ v.y * u.y ∧ (u.y ≠ 0 → 0 < v.y * u.y)) (hu : u ≠ ⟨0, 0⟩) : 0 < v.dot u := by
  by_cases h : u.x = 0
  · have : u.y ≠ 0 := fun h' => hu (by cases u; simp_all)
    have := hy.2 this
    simp only [Point.dot]; omega
  · have := hx.2 h
    simp only [Point.dot]; omega

/-- Trimming down turns a vector clockwise by less than a quarter turn, unless nothing is left of it. -/
theorem trimDown_spec (k : Nat) (v : Point) (hu : v.trimDown k ≠ ⟨0, 0⟩) :
    0 < v.dot (v.trimDown k) ∧ v.cross (v.trimDown k) ≤ 0 := by
  have hp : (0 : Int) < ((2 ^ k : Nat) : Int) := by positivity
  refine ⟨dot_pos_of_signs ?_ ?_ hu, ?_⟩
  · simp only [Point.trimDown]; split
    · exact divCeil_sign _ _
    · exact divFloor_sign _ _
  · simp only [Point.trimDown]; split
    · exact divFloor_sign _ _
    · exact divCeil_sign _ _
  · have fx := (divFloor_spec v.x k).1
    have fy := (divFloor_spec v.y k).1
    have cx := (divCeil_spec v.x k).1
    have cy := (divCeil_spec v.y k).1
    generalize ((2 ^ k : Nat) : Int) = P at *
    simp only [Point.trimDown, Point.cross]
    refine nonpos_of_mul_nonpos_left (b := P) ?_ hp
    rw [sub_mul, mul_assoc, mul_assoc]
    split <;> split <;> nlinarith

/-- Trimming up turns a vector counter-clockwise by less than a quarter turn, unless nothing is left of it. -/
theorem trimUp_spec (k : Nat) (v : Point) (hu : v.trimUp k ≠ ⟨0, 0⟩) :
    0 < v.dot (v.trimUp k) ∧ 0 ≤ v.cross (v.trimUp k) := by
  have hp : (0 : Int) < ((2 ^ k : Nat) : Int) := by positivity
  refine ⟨dot_pos_of_signs ?_ ?_ hu, ?_⟩
  · simp only [Point.trimUp]; split
    · exact divFloor_sign _ _
    · exact divCeil_sign _ _
  · simp only [Point.trimUp]; split
    · exact divCeil_sign _ _
    · exact divFloor_sign _ _
  · have fx := (divFloor_spec v.x k).1
    have fy := (divFloor_spec v.y k).1
    have cx := (divCeil_spec v.x k).1
    have cy := (divCeil_spec v.y k).1
    generalize ((2 ^ k : Nat) : Int) = P at *
    simp only [Point.trimUp, Point.cross]
    refine nonneg_of_mul_nonneg_left (b := P) ?_ hp
    rw [sub_mul, mul_assoc, mul_assoc]
    split <;> split <;> nlinarith

theorem one_atTurn_zero : AtTurn ⟨1, 0⟩ 0 := ⟨1, one_pos, by simp, by simp⟩

/-- The `n`-th power of a vector less than half a turn up stands `n` times as far, and the count is its full turns. -/
theorem powTurns_spec {z : Point} {t : ℝ} (h : AtTurn z t) (h0 : 0 ≤ t) (h1 : t < 1 / 2) (n : Nat) :
    AtTurn (powTurns z n).1 (n * t) ∧ ((powTurns z n).2 : ℤ) = ⌊(n : ℝ) * t⌋ := by
  induction n with
  | zero => simpa [powTurns] using one_atTurn_zero
  | succ n ih =>
    obtain ⟨hw, ht⟩ := ih
    have hw' := hw.mul h
    have e : ((n + 1 : ℕ) : ℝ) * t = n * t + t := by push_cast; ring
    rw [e]
    refine ⟨hw', ?_⟩
    have hu := hw.upper_iff
    have hu' := hw'.upper_iff
    simp only [powTurns]
    generalize (powTurns z n) = w at *
    generalize (n : ℝ) * t = a at *
    have ha := Int.floor_add_fract a
    have hb := Int.floor_add_fract (a + t)
    have f0 := Int.fract_nonneg a
    have f1 := Int.fract_lt_one a
    have g0 := Int.fract_nonneg (a + t)
    have g1 := Int.fract_lt_one (a + t)
    have hle : ⌊a⌋ ≤ ⌊a + t⌋ := Int.floor_mono (by linarith)
    have hlt : ⌊a + t⌋ < ⌊a⌋ + 2 := by
      have : (⌊a + t⌋ : ℝ) < ⌊a⌋ + 2 := by linarith
      exact_mod_cast this
    have hcase : ⌊a + t⌋ = ⌊a⌋ ∨ ⌊a + t⌋ = ⌊a⌋ + 1 := by omega
    by_cases hup : w.1.upper = true
    · have : Int.fract a < 1 / 2 := hu.1 hup
      have hf : ⌊a + t⌋ = ⌊a⌋ := by
        rcases hcase with h | h
        · exact h
        · rw [h] at hb; push_cast at hb; linarith
      simp [hup, hf, ht]
    · have hge : 1 / 2 ≤ Int.fract a := not_lt.1 fun hlt' => hup (hu.2 hlt')
      rcases hcase with h | h
      · have : ¬(w.1.mul z).upper = true := fun hc => by
          have := hu'.1 hc; rw [h] at hb; linarith
        simp [this, h, ht]
      · have : (w.1.mul z).upper = true := hu'.2 (by rw [h] at hb; push_cast at hb; linarith)
        simp [hup, this, h, ht]

/-- The digit a half plane gives: `2 * T` has the parity that the half plane of a vector at `T` turns says. -/
theorem upper_digit {v : Point} {t : ℝ} (h : AtTurn v t) :
    ⌊2 * t⌋ = 2 * ⌊t⌋ + (if v.upper then 0 else 1) := by
  have ha := Int.floor_add_fract t
  have f0 := Int.fract_nonneg t
  have f1 := Int.fract_lt_one t
  rw [Int.floor_eq_iff]
  split
  · rename_i hu
    have := h.upper_iff.1 hu
    push_cast; constructor <;> linarith
  · rename_i hu
    have : 1 / 2 ≤ Int.fract t := not_lt.1 fun hlt' => hu (h.upper_iff.2 hlt')
    push_cast; constructor <;> linarith

/-- `lo` and `hi` enclose a vector at `t` turns, less than one turn apart; what has been trimmed to nothing encloses
anything. -/
def Encloses (lo hi : Point) (t : ℝ) : Prop :=
  lo ≠ ⟨0, 0⟩ → hi ≠ ⟨0, 0⟩ → ∃ a b : ℝ, AtTurn lo a ∧ AtTurn hi b ∧ a ≤ t ∧ t ≤ b ∧ b - a < 1

theorem dot_ne_zero {v u : Point} (h : 0 < v.dot u) : v ≠ ⟨0, 0⟩ ∧ u ≠ ⟨0, 0⟩ := by
  constructor <;> rintro rfl <;> simp [Point.dot] at h

/-- Where the enclosure passes the test it is narrower than a quarter turn, and its half plane gives the next digit. -/
theorem enclosed_spec {lo hi : Point} {t : ℝ} (he : Encloses lo hi t) (h : enclosed lo hi = true) :
    ⌊2 * t⌋ = 2 * ⌊t⌋ + (if lo.upper then 0 else 1) ∧
      ∃ a b : ℝ, AtTurn lo a ∧ AtTurn hi b ∧ a ≤ t ∧ t ≤ b ∧ b - a < 1 / 4 := by
  simp only [enclosed, Bool.and_eq_true, decide_eq_true_eq, beq_iff_eq] at h
  obtain ⟨⟨hd, hc⟩, hup⟩ := h
  obtain ⟨hlo, hhi⟩ := dot_ne_zero hd
  obtain ⟨a, b, ha, hb, hat, htb, hab⟩ := he hlo hhi
  obtain ⟨d, hd1, hd2, hd3, hd4, -⟩ := ha.near hd
  have hd0 := hd4 hc
  obtain ⟨m, hm⟩ := hb.unique hd3
  have hm0 : m = 0 := by
    have h1 : (m : ℝ) < 1 := by linarith
    have h2 : (-1 : ℝ) < m := by linarith
    have h1' : m < 1 := by exact_mod_cast h1
    have h2' : -1 < m := by exact_mod_cast h2
    omega
  subst hm0
  have hw : b - a < 1 / 4 := by push_cast at hm; linarith
  refine ⟨?_, a, b, ha, hb, hat, htb, hw⟩
  have da := upper_digit ha
  have db := upper_digit hb
  have l1 : ⌊2 * a⌋ ≤ ⌊2 * t⌋ := Int.floor_mono (by linarith)
  have l2 : ⌊2 * t⌋ ≤ ⌊2 * b⌋ := Int.floor_mono (by linarith)
  have l3 : ⌊2 * b⌋ ≤ ⌊2 * a⌋ + 1 := by
    have h1 := Int.floor_le (2 * b)
    have h2 := Int.lt_floor_add_one (2 * a)
    have : (⌊2 * b⌋ : ℝ) < ⌊2 * a⌋ + 1 + 1 := by linarith
    have : ⌊2 * b⌋ < ⌊2 * a⌋ + 1 + 1 := by exact_mod_cast this
    omega
  have m1 : 2 * ⌊t⌋ ≤ ⌊2 * t⌋ := by
    rw [Int.le_floor]; push_cast; linarith [Int.floor_le t]
  have m2 : ⌊2 * t⌋ < 2 * ⌊t⌋ + 2 := by
    rw [Int.floor_lt]; push_cast; linarith [Int.lt_floor_add_one t]
  rw [← hup] at db
  split at da <;> simp_all <;> omega

theorem Encloses.square {lo hi : Point} {a b t : ℝ} (ha : AtTurn lo a) (hb : AtTurn hi b) (hat : a ≤ t) (htb : t ≤ b)
    (hab : b - a < 1 / 4) (j k : Nat) :
    Encloses ((lo.mul lo).trimDown j) ((hi.mul hi).trimUp k) (2 * t) := by
  intro hlo hhi
  have ha2 := ha.mul ha
  have hb2 := hb.mul hb
  obtain ⟨d1, c1⟩ := trimDown_spec j _ hlo
  obtain ⟨d2, c2⟩ := trimUp_spec k _ hhi
  obtain ⟨d, l1, l2, l3, -, l5⟩ := ha2.near d1
  obtain ⟨e, m1, m2, m3, m4, -⟩ := hb2.near d2
  have := l5 c1
  have := m4 c2
  exact ⟨_, _, l3, m3, by linarith, by linarith, by linarith⟩

/-- Whatever the precision, the digits are those of the exact number of turns. -/
theorem turnDigits_spec (p : Option Nat) (n : Nat) {lo hi : Point} {t : ℝ} {acc d : Nat} (he : Encloses lo hi t)
    (hacc : (acc : ℤ) = ⌊t⌋) (h : turnDigits p n lo hi acc = some d) : (d : ℤ) = ⌊2 ^ n * t⌋ := by
  induction n generalizing lo hi t acc with
  | zero => simp only [turnDigits, Option.some.injEq] at h; subst h; simpa using hacc
  | succ n ih =>
    simp only [turnDigits] at h
    split at h
    · rename_i hen
      obtain ⟨hdig, a, b, ha, hb, hat, htb, hab⟩ := enclosed_spec he hen
      have := ih (Encloses.square ha hb hat htb hab _ _) (by rw [hdig, ← hacc]; split <;> simp) h
      rw [this]; congr 1; ring
    · simp at h

theorem trimDown_zero (v : Point) : v.trimDown 0 = v := by simp [Point.trimDown, divFloor_zero, divCeil_zero]

theorem trimUp_zero (v : Point) : v.trimUp 0 = v := by simp [Point.trimUp, divFloor_zero, divCeil_zero]

theorem enclosed_self {v : Point} (h : v ≠ ⟨0, 0⟩) : enclosed v v = true := by
  have h1 : 0 < v.dot v := by
    apply dot_pos_of_signs (v := v) (u := v) _ _ h
    · exact ⟨mul_self_nonneg _, fun h => mul_self_pos.2 h⟩
    · exact ⟨mul_self_nonneg _, fun h => mul_self_pos.2 h⟩
  have h2 : v.cross v = 0 := by simp only [Point.cross]; ring
  simp [enclosed, h1, h2]

/-- Without trimming the digits always come. -/
theorem turnDigits_exact (n : Nat) {v : Point} {t : ℝ} (h : AtTurn v t) (acc : Nat) :
    ∃ d, turnDigits none n v v acc = some d := by
  induction n generalizing v t acc with
  | zero => exact ⟨acc, rfl⟩
  | succ n ih =>
    simp only [turnDigits, enclosed_self h.ne_zero, if_true, Point.excess, trimDown_zero, trimUp_zero]
    exact ih (h.mul h) _

/-- The vector turned back into the first quadrant. -/
theorem quadrant_spec {v : Point} {t : ℝ} (h : AtTurn v t) (h0 : 0 ≤ t) (h1 : t < 1) :
    AtTurn (quadrant v).2 (t - (quadrant v).1 / 4) ∧ 0 ≤ t - (quadrant v).1 / 4 ∧ t - (quadrant v).1 / 4 < 1 / 4 := by
  have hpi := pi_pos
  obtain ⟨r, hr, hx, hy⟩ := h
  -- the vector turned back by `k` quarter turns, and the turns it then stands at
  have back : ∀ u : Point, ∀ k : ℕ, k ≤ 3 → AtTurn u (t - k / 4) → 0 < u.x → 0 ≤ u.y →
      0 ≤ t - k / 4 ∧ t - (k : ℝ) / 4 < 1 / 4 := by
    intro u k hk hu hux huy
    have hk' : (k : ℝ) ≤ 3 := by exact_mod_cast hk
    have hd : 0 < Point.dot ⟨1, 0⟩ u := by simpa [Point.dot] using hux
    obtain ⟨d, -, hd2, hd3, hd4, -⟩ := one_atTurn_zero.near hd
    have hd0 : 0 ≤ d := hd4 (by simpa [Point.cross] using huy)
    obtain ⟨m, hm⟩ := hu.unique hd3
    have hm0 : m = 0 := by
      have hk0 : (0 : ℝ) ≤ k := Nat.cast_nonneg k
      have h1 : (m : ℝ) < 1 := by linarith
      have h2 : (-1 : ℝ) < m := by linarith
      have h1' : m < 1 := by exact_mod_cast h1
      have h2' : -1 < m := by exact_mod_cast h2
      omega
    subst hm0
    push_cast at hm
    constructor <;> linarith
  have e1 : 2 * π * (t - 1 / 4) = 2 * π * t - π / 2 := by ring
  have e2 : 2 * π * (t - 2 / 4) = 2 * π * t - π := by ring
  have e3 : 2 * π * (t - 3 / 4) = 2 * π * t - π / 2 - π := by ring
  have a0 : AtTurn v (t - (0 : ℕ) / 4) := ⟨r, hr, by simpa using hx, by simpa using hy⟩
  have a1 : AtTurn ⟨v.y, -v.x⟩ (t - (1 : ℕ) / 4) := by
    refine ⟨r, hr, ?_, ?_⟩ <;> push_cast <;> rw [e1]
    · rw [cos_sub_pi_div_two]; exact hy
    · rw [sin_sub_pi_div_two, hx]; ring
  have a2 : AtTurn ⟨-v.x, -v.y⟩ (t - (2 : ℕ) / 4) := by
    refine ⟨r, hr, ?_, ?_⟩ <;> push_cast <;> rw [e2]
    · rw [cos_sub_pi, hx]; ring
    · rw [sin_sub_pi, hy]; ring
  have a3 : AtTurn ⟨-v.y, v.x⟩ (t - (3 : ℕ) / 4) := by
    refine ⟨r, hr, ?_, ?_⟩ <;> push_cast <;> rw [e3]
    · rw [cos_sub_pi, cos_sub_pi_div_two, hy]; ring
    · rw [sin_sub_pi, sin_sub_pi_div_two, hx]; ring
  have hne : v ≠ ⟨0, 0⟩ := AtTurn.ne_zero ⟨r, hr, hx, hy⟩
  simp only [quadrant]
  split
  · rename_i hq
    exact ⟨a0, back _ 0 (by norm_num) a0 hq.1 hq.2⟩
  split
  · rename_i hq
    exact ⟨a1, back _ 1 (by norm_num) a1 hq.2 (by simpa using hq.1)⟩
  split
  · rename_i hq
    exact ⟨a2, back _ 2 (by norm_num) a2 (by simpa using hq.1) (by simpa using hq.2)⟩
  · rename_i q0 q1 q2
    have : v.y < 0 ∧ 0 ≤ v.x := by
      by_contra hc
      apply hne
      cases v
      simp only [Point.mk.injEq] at *
      omega
    exact ⟨a3, back _ 3 (by norm_num) a3 (by simpa using this.1) this.2⟩

theorem quadrantUnits_spec (p : Option Nat) {z : Point} {t : ℝ} (h : AtTurn z t) (h0 : 0 ≤ t) (h1 : t < 1 / 4) {d : Nat}
    (hd : quadrantUnits p z = some d) : (d : ℤ) = ⌊(23592960 : ℝ) * t⌋ := by
  obtain ⟨hw, hc⟩ := powTurns_spec h h0 (by linarith) 45
  have he : Encloses (powTurns z 45).1 (powTurns z 45).1 (((45 : ℕ) : ℝ) * t) :=
    fun _ _ => ⟨_, _, hw, hw, le_rfl, le_rfl, by norm_num⟩
  simp only [quadrantUnits] at hd
  have := turnDigits_spec p 19 he hc hd
  rw [this, ← mul_assoc]
  norm_num

theorem quadrantUnits_exact {z : Point} {t : ℝ} (h : AtTurn z t) (h0 : 0 ≤ t) (h1 : t < 1 / 4) :
    ∃ d, quadrantUnits none z = some d :=
  turnDigits_exact 19 (powTurns_spec h h0 (by linarith) 45).1 _

/-- R71: a vector at `t` turns, 0 <= t < 1, that is at `360 * t` degrees, has the angle `floor(360 * t * 65536)`. -/
theorem angleUnits_spec {v : Point} {t : ℝ} (h : AtTurn v t) (h0 : 0 ≤ t) (h1 : t < 1) :
    (angleUnits v : ℤ) = ⌊(23592960 : ℝ) * t⌋ := by
  obtain ⟨hq, hq0, hq1⟩ := quadrant_spec h h0 h1
  have key : ∀ d : Nat, (d : ℤ) = ⌊(23592960 : ℝ) * (t - (quadrant v).1 / 4)⌋ →
      (((quadrant v).1 * (90 * Config.one) + d : ℕ) : ℤ) = ⌊(23592960 : ℝ) * t⌋ := by
    intro d hd
    push_cast
    rw [hd, ← Int.floor_intCast_add]
    congr 1
    push_cast [Config.one]
    ring
  simp only [angleUnits]
  split
  · rename_i a ha
    exact key a (quadrantUnits_spec _ hq hq0 hq1 ha)
  · obtain ⟨d, hd⟩ := quadrantUnits_exact hq hq0 hq1
    rw [hd]
    exact key d (quadrantUnits_spec _ hq hq0 hq1 hd)

/-- R71: the angle of a vector is below 360 degrees. -/
theorem angleUnits_lt {v : Point} (h : v ≠ ⟨0, 0⟩) : angleUnits v < 23592960 := by
  obtain ⟨t, h0, h1, ht⟩ := exists_atTurn h
  have := angleUnits_spec ht h0 h1
  have : ⌊(23592960 : ℝ) * t⌋ < 23592960 := by rw [Int.floor_lt]; push_cast; linarith
  omega

end Sys2Proof.Laws
end

