-- ==== Sys2Proof/Laws/Decode.lean ====
section
/-! SUPPORT. The fields of a command word and the word are the same 32 bits (30_encoding.md R51), and the fields as
numbers. -/

namespace Sys2Proof.Laws

theorem toWord_toNat (f : Fields) :
    f.toWord.toNat = 256 * f.rsv.toNat + 16 * f.op.toNat + 8 * f.r3.toNat + f.btn.toNat := by
  have h1 := f.rsv.isLt
  have h2 := f.op.isLt
  have h3 := f.r3.isLt
  have h4 := f.btn.isLt
  simp only [Fields.toWord, BitVec.toNat_append]
  rw [Nat.shiftLeft_eq, Nat.shiftLeft_eq, Nat.shiftLeft_eq]
  rw [mul_comm f.rsv.toNat, ← Nat.two_pow_add_eq_or_of_lt h2, mul_comm (_ + f.op.toNat),
    ← Nat.two_pow_add_eq_or_of_lt h3, mul_comm (_ + f.r3.toNat), ← Nat.two_pow_add_eq_or_of_lt h4]
  omega

theorem ofWord_toNat (w : Word) :
    (Fields.ofWord w).rsv.toNat = w.toNat / 256 ∧ (Fields.ofWord w).op.toNat = w.toNat / 16 % 16 ∧
      (Fields.ofWord w).r3.toNat = w.toNat / 8 % 2 ∧ (Fields.ofWord w).btn.toNat = w.toNat % 8 := by
  have := w.isLt
  simp only [Fields.ofWord, BitVec.extractLsb'_toNat, Nat.shiftRight_eq_div_pow]
  norm_num
  omega

/-- The fields of a word make that word again. -/
@[simp] theorem toWord_ofWord (w : Word) : (Fields.ofWord w).toWord = w := by
  obtain ⟨h1, h2, h3, h4⟩ := ofWord_toNat w
  apply BitVec.eq_of_toNat_eq
  rw [toWord_toNat, h1, h2, h3, h4]
  omega

/-- The word of fields has those fields. -/
@[simp] theorem ofWord_toWord (f : Fields) : Fields.ofWord f.toWord = f := by
  obtain ⟨h1, h2, h3, h4⟩ := ofWord_toNat f.toWord
  rw [toWord_toNat] at h1 h2 h3 h4
  have l1 := f.rsv.isLt
  have l2 := f.op.isLt
  have l3 := f.r3.isLt
  have l4 := f.btn.isLt
  cases hf : Fields.ofWord f.toWord
  rw [hf] at h1 h2 h3 h4
  cases f
  simp only [Fields.mk.injEq] at *
  refine ⟨?_, ?_, ?_, ?_⟩ <;> apply BitVec.eq_of_toNat_eq <;> omega

end Sys2Proof.Laws
end

