-- ==== Sys2Proof/Laws/State.lean ====
section
/-! SUPPORT. One lemma for each field under each update of State, so that no proof unfolds a record update; and the same
for the flags of STATUS. -/

namespace Sys2Proof.Laws

open Sys2Proof.Machine

@[simp] theorem setFlag_status (s : State) (f : StickyFlag) : (s.setFlag f).status = s.status.set f := rfl
@[simp] theorem setFlag_resX (s : State) (f : StickyFlag) : (s.setFlag f).resX = s.resX := rfl
@[simp] theorem setFlag_resY (s : State) (f : StickyFlag) : (s.setFlag f).resY = s.resY := rfl
@[simp] theorem setFlag_resMag (s : State) (f : StickyFlag) : (s.setFlag f).resMag = s.resMag := rfl
@[simp] theorem setFlag_resAng (s : State) (f : StickyFlag) : (s.setFlag f).resAng = s.resAng := rfl
@[simp] theorem setFlag_resDir (s : State) (f : StickyFlag) : (s.setFlag f).resDir = s.resDir := rfl
@[simp] theorem setFlag_resBit (s : State) (f : StickyFlag) : (s.setFlag f).resBit = s.resBit := rfl
@[simp] theorem setFlag_calX0 (s : State) (f : StickyFlag) : (s.setFlag f).calX0 = s.calX0 := rfl
@[simp] theorem setFlag_calY0 (s : State) (f : StickyFlag) : (s.setFlag f).calY0 = s.calY0 := rfl
@[simp] theorem setFlag_latch (s : State) (f : StickyFlag) : (s.setFlag f).latch = s.latch := rfl
@[simp] theorem setFlag_level (s : State) (f : StickyFlag) : (s.setFlag f).level = s.level := rfl
@[simp] theorem setFlag_ainH (s : State) (f : StickyFlag) : (s.setFlag f).ainH = s.ainH := rfl
@[simp] theorem setFlag_ainV (s : State) (f : StickyFlag) : (s.setFlag f).ainV = s.ainV := rfl
@[simp] theorem setFlag_basePage (s : State) (f : StickyFlag) : (s.setFlag f).basePage = s.basePage := rfl
@[simp] theorem setFlag_pending (s : State) (f : StickyFlag) : (s.setFlag f).pending = s.pending := rfl
@[simp] theorem setFlag_response (s : State) (f : StickyFlag) : (s.setFlag f).response = s.response := rfl

@[simp] theorem clearFlags_status (s : State) : (s.clearFlags).status = { s.status with nocal := false, domerr := false, illegal := false, sat := false } := rfl
@[simp] theorem clearFlags_resX (s : State) : (s.clearFlags).resX = s.resX := rfl
@[simp] theorem clearFlags_resY (s : State) : (s.clearFlags).resY = s.resY := rfl
@[simp] theorem clearFlags_resMag (s : State) : (s.clearFlags).resMag = s.resMag := rfl
@[simp] theorem clearFlags_resAng (s : State) : (s.clearFlags).resAng = s.resAng := rfl
@[simp] theorem clearFlags_resDir (s : State) : (s.clearFlags).resDir = s.resDir := rfl
@[simp] theorem clearFlags_resBit (s : State) : (s.clearFlags).resBit = s.resBit := rfl
@[simp] theorem clearFlags_calX0 (s : State) : (s.clearFlags).calX0 = s.calX0 := rfl
@[simp] theorem clearFlags_calY0 (s : State) : (s.clearFlags).calY0 = s.calY0 := rfl
@[simp] theorem clearFlags_latch (s : State) : (s.clearFlags).latch = s.latch := rfl
@[simp] theorem clearFlags_level (s : State) : (s.clearFlags).level = s.level := rfl
@[simp] theorem clearFlags_ainH (s : State) : (s.clearFlags).ainH = s.ainH := rfl
@[simp] theorem clearFlags_ainV (s : State) : (s.clearFlags).ainV = s.ainV := rfl
@[simp] theorem clearFlags_basePage (s : State) : (s.clearFlags).basePage = s.basePage := rfl
@[simp] theorem clearFlags_pending (s : State) : (s.clearFlags).pending = s.pending := rfl
@[simp] theorem clearFlags_response (s : State) : (s.clearFlags).response = s.response := rfl

@[simp] theorem setInit_status (s : State) : (s.setInit).status = { s.status with init := true } := rfl
@[simp] theorem setInit_resX (s : State) : (s.setInit).resX = s.resX := rfl
@[simp] theorem setInit_resY (s : State) : (s.setInit).resY = s.resY := rfl
@[simp] theorem setInit_resMag (s : State) : (s.setInit).resMag = s.resMag := rfl
@[simp] theorem setInit_resAng (s : State) : (s.setInit).resAng = s.resAng := rfl
@[simp] theorem setInit_resDir (s : State) : (s.setInit).resDir = s.resDir := rfl
@[simp] theorem setInit_resBit (s : State) : (s.setInit).resBit = s.resBit := rfl
@[simp] theorem setInit_calX0 (s : State) : (s.setInit).calX0 = s.calX0 := rfl
@[simp] theorem setInit_calY0 (s : State) : (s.setInit).calY0 = s.calY0 := rfl
@[simp] theorem setInit_latch (s : State) : (s.setInit).latch = s.latch := rfl
@[simp] theorem setInit_level (s : State) : (s.setInit).level = s.level := rfl
@[simp] theorem setInit_ainH (s : State) : (s.setInit).ainH = s.ainH := rfl
@[simp] theorem setInit_ainV (s : State) : (s.setInit).ainV = s.ainV := rfl
@[simp] theorem setInit_basePage (s : State) : (s.setInit).basePage = s.basePage := rfl
@[simp] theorem setInit_pending (s : State) : (s.setInit).pending = s.pending := rfl
@[simp] theorem setInit_response (s : State) : (s.setInit).response = s.response := rfl

@[simp] theorem writeXY_status (s : State) (x y : Int) : (s.writeXY x y).status = s.status := rfl
@[simp] theorem writeXY_resX (s : State) (x y : Int) : (s.writeXY x y).resX = sext32 x := rfl
@[simp] theorem writeXY_resY (s : State) (x y : Int) : (s.writeXY x y).resY = sext32 y := rfl
@[simp] theorem writeXY_resMag (s : State) (x y : Int) : (s.writeXY x y).resMag = s.resMag := rfl
@[simp] theorem writeXY_resAng (s : State) (x y : Int) : (s.writeXY x y).resAng = s.resAng := rfl
@[simp] theorem writeXY_resDir (s : State) (x y : Int) : (s.writeXY x y).resDir = s.resDir := rfl
@[simp] theorem writeXY_resBit (s : State) (x y : Int) : (s.writeXY x y).resBit = s.resBit := rfl
@[simp] theorem writeXY_calX0 (s : State) (x y : Int) : (s.writeXY x y).calX0 = s.calX0 := rfl
@[simp] theorem writeXY_calY0 (s : State) (x y : Int) : (s.writeXY x y).calY0 = s.calY0 := rfl
@[simp] theorem writeXY_latch (s : State) (x y : Int) : (s.writeXY x y).latch = s.latch := rfl
@[simp] theorem writeXY_level (s : State) (x y : Int) : (s.writeXY x y).level = s.level := rfl
@[simp] theorem writeXY_ainH (s : State) (x y : Int) : (s.writeXY x y).ainH = s.ainH := rfl
@[simp] theorem writeXY_ainV (s : State) (x y : Int) : (s.writeXY x y).ainV = s.ainV := rfl
@[simp] theorem writeXY_basePage (s : State) (x y : Int) : (s.writeXY x y).basePage = s.basePage := rfl
@[simp] theorem writeXY_pending (s : State) (x y : Int) : (s.writeXY x y).pending = s.pending := rfl
@[simp] theorem writeXY_response (s : State) (x y : Int) : (s.writeXY x y).response = s.response := rfl

@[simp] theorem writeMag_status (s : State) (m : Int) : (s.writeMag m).status = s.status := rfl
@[simp] theorem writeMag_resX (s : State) (m : Int) : (s.writeMag m).resX = s.resX := rfl
@[simp] theorem writeMag_resY (s : State) (m : Int) : (s.writeMag m).resY = s.resY := rfl
@[simp] theorem writeMag_resMag (s : State) (m : Int) : (s.writeMag m).resMag = sext32 m := rfl
@[simp] theorem writeMag_resAng (s : State) (m : Int) : (s.writeMag m).resAng = s.resAng := rfl
@[simp] theorem writeMag_resDir (s : State) (m : Int) : (s.writeMag m).resDir = s.resDir := rfl
@[simp] theorem writeMag_resBit (s : State) (m : Int) : (s.writeMag m).resBit = s.resBit := rfl
@[simp] theorem writeMag_calX0 (s : State) (m : Int) : (s.writeMag m).calX0 = s.calX0 := rfl
@[simp] theorem writeMag_calY0 (s : State) (m : Int) : (s.writeMag m).calY0 = s.calY0 := rfl
@[simp] theorem writeMag_latch (s : State) (m : Int) : (s.writeMag m).latch = s.latch := rfl
@[simp] theorem writeMag_level (s : State) (m : Int) : (s.writeMag m).level = s.level := rfl
@[simp] theorem writeMag_ainH (s : State) (m : Int) : (s.writeMag m).ainH = s.ainH := rfl
@[simp] theorem writeMag_ainV (s : State) (m : Int) : (s.writeMag m).ainV = s.ainV := rfl
@[simp] theorem writeMag_basePage (s : State) (m : Int) : (s.writeMag m).basePage = s.basePage := rfl
@[simp] theorem writeMag_pending (s : State) (m : Int) : (s.writeMag m).pending = s.pending := rfl
@[simp] theorem writeMag_response (s : State) (m : Int) : (s.writeMag m).response = s.response := rfl

@[simp] theorem writeAng_status (s : State) (a : Int) : (s.writeAng a).status = s.status := rfl
@[simp] theorem writeAng_resX (s : State) (a : Int) : (s.writeAng a).resX = s.resX := rfl
@[simp] theorem writeAng_resY (s : State) (a : Int) : (s.writeAng a).resY = s.resY := rfl
@[simp] theorem writeAng_resMag (s : State) (a : Int) : (s.writeAng a).resMag = s.resMag := rfl
@[simp] theorem writeAng_resAng (s : State) (a : Int) : (s.writeAng a).resAng = sext32 a := rfl
@[simp] theorem writeAng_resDir (s : State) (a : Int) : (s.writeAng a).resDir = s.resDir := rfl
@[simp] theorem writeAng_resBit (s : State) (a : Int) : (s.writeAng a).resBit = s.resBit := rfl
@[simp] theorem writeAng_calX0 (s : State) (a : Int) : (s.writeAng a).calX0 = s.calX0 := rfl
@[simp] theorem writeAng_calY0 (s : State) (a : Int) : (s.writeAng a).calY0 = s.calY0 := rfl
@[simp] theorem writeAng_latch (s : State) (a : Int) : (s.writeAng a).latch = s.latch := rfl
@[simp] theorem writeAng_level (s : State) (a : Int) : (s.writeAng a).level = s.level := rfl
@[simp] theorem writeAng_ainH (s : State) (a : Int) : (s.writeAng a).ainH = s.ainH := rfl
@[simp] theorem writeAng_ainV (s : State) (a : Int) : (s.writeAng a).ainV = s.ainV := rfl
@[simp] theorem writeAng_basePage (s : State) (a : Int) : (s.writeAng a).basePage = s.basePage := rfl
@[simp] theorem writeAng_pending (s : State) (a : Int) : (s.writeAng a).pending = s.pending := rfl
@[simp] theorem writeAng_response (s : State) (a : Int) : (s.writeAng a).response = s.response := rfl

@[simp] theorem writeDir_status (s : State) (c : BitVec 4) : (s.writeDir c).status = s.status := rfl
@[simp] theorem writeDir_resX (s : State) (c : BitVec 4) : (s.writeDir c).resX = s.resX := rfl
@[simp] theorem writeDir_resY (s : State) (c : BitVec 4) : (s.writeDir c).resY = s.resY := rfl
@[simp] theorem writeDir_resMag (s : State) (c : BitVec 4) : (s.writeDir c).resMag = s.resMag := rfl
@[simp] theorem writeDir_resAng (s : State) (c : BitVec 4) : (s.writeDir c).resAng = s.resAng := rfl
@[simp] theorem writeDir_resDir (s : State) (c : BitVec 4) : (s.writeDir c).resDir = c := rfl
@[simp] theorem writeDir_resBit (s : State) (c : BitVec 4) : (s.writeDir c).resBit = s.resBit := rfl
@[simp] theorem writeDir_calX0 (s : State) (c : BitVec 4) : (s.writeDir c).calX0 = s.calX0 := rfl
@[simp] theorem writeDir_calY0 (s : State) (c : BitVec 4) : (s.writeDir c).calY0 = s.calY0 := rfl
@[simp] theorem writeDir_latch (s : State) (c : BitVec 4) : (s.writeDir c).latch = s.latch := rfl
@[simp] theorem writeDir_level (s : State) (c : BitVec 4) : (s.writeDir c).level = s.level := rfl
@[simp] theorem writeDir_ainH (s : State) (c : BitVec 4) : (s.writeDir c).ainH = s.ainH := rfl
@[simp] theorem writeDir_ainV (s : State) (c : BitVec 4) : (s.writeDir c).ainV = s.ainV := rfl
@[simp] theorem writeDir_basePage (s : State) (c : BitVec 4) : (s.writeDir c).basePage = s.basePage := rfl
@[simp] theorem writeDir_pending (s : State) (c : BitVec 4) : (s.writeDir c).pending = s.pending := rfl
@[simp] theorem writeDir_response (s : State) (c : BitVec 4) : (s.writeDir c).response = s.response := rfl

@[simp] theorem writeBit_status (s : State) (v : Bool) : (s.writeBit v).status = s.status := rfl
@[simp] theorem writeBit_resX (s : State) (v : Bool) : (s.writeBit v).resX = s.resX := rfl
@[simp] theorem writeBit_resY (s : State) (v : Bool) : (s.writeBit v).resY = s.resY := rfl
@[simp] theorem writeBit_resMag (s : State) (v : Bool) : (s.writeBit v).resMag = s.resMag := rfl
@[simp] theorem writeBit_resAng (s : State) (v : Bool) : (s.writeBit v).resAng = s.resAng := rfl
@[simp] theorem writeBit_resDir (s : State) (v : Bool) : (s.writeBit v).resDir = s.resDir := rfl
@[simp] theorem writeBit_resBit (s : State) (v : Bool) : (s.writeBit v).resBit = BitVec.ofBool v := rfl
@[simp] theorem writeBit_calX0 (s : State) (v : Bool) : (s.writeBit v).calX0 = s.calX0 := rfl
@[simp] theorem writeBit_calY0 (s : State) (v : Bool) : (s.writeBit v).calY0 = s.calY0 := rfl
@[simp] theorem writeBit_latch (s : State) (v : Bool) : (s.writeBit v).latch = s.latch := rfl
@[simp] theorem writeBit_level (s : State) (v : Bool) : (s.writeBit v).level = s.level := rfl
@[simp] theorem writeBit_ainH (s : State) (v : Bool) : (s.writeBit v).ainH = s.ainH := rfl
@[simp] theorem writeBit_ainV (s : State) (v : Bool) : (s.writeBit v).ainV = s.ainV := rfl
@[simp] theorem writeBit_basePage (s : State) (v : Bool) : (s.writeBit v).basePage = s.basePage := rfl
@[simp] theorem writeBit_pending (s : State) (v : Bool) : (s.writeBit v).pending = s.pending := rfl
@[simp] theorem writeBit_response (s : State) (v : Bool) : (s.writeBit v).response = s.response := rfl

@[simp] theorem writeCal_status (s : State) (h v : Sample) : (s.writeCal h v).status = s.status := rfl
@[simp] theorem writeCal_resX (s : State) (h v : Sample) : (s.writeCal h v).resX = s.resX := rfl
@[simp] theorem writeCal_resY (s : State) (h v : Sample) : (s.writeCal h v).resY = s.resY := rfl
@[simp] theorem writeCal_resMag (s : State) (h v : Sample) : (s.writeCal h v).resMag = s.resMag := rfl
@[simp] theorem writeCal_resAng (s : State) (h v : Sample) : (s.writeCal h v).resAng = s.resAng := rfl
@[simp] theorem writeCal_resDir (s : State) (h v : Sample) : (s.writeCal h v).resDir = s.resDir := rfl
@[simp] theorem writeCal_resBit (s : State) (h v : Sample) : (s.writeCal h v).resBit = s.resBit := rfl
@[simp] theorem writeCal_calX0 (s : State) (h v : Sample) : (s.writeCal h v).calX0 = h := rfl
@[simp] theorem writeCal_calY0 (s : State) (h v : Sample) : (s.writeCal h v).calY0 = v := rfl
@[simp] theorem writeCal_latch (s : State) (h v : Sample) : (s.writeCal h v).latch = s.latch := rfl
@[simp] theorem writeCal_level (s : State) (h v : Sample) : (s.writeCal h v).level = s.level := rfl
@[simp] theorem writeCal_ainH (s : State) (h v : Sample) : (s.writeCal h v).ainH = s.ainH := rfl
@[simp] theorem writeCal_ainV (s : State) (h v : Sample) : (s.writeCal h v).ainV = s.ainV := rfl
@[simp] theorem writeCal_basePage (s : State) (h v : Sample) : (s.writeCal h v).basePage = s.basePage := rfl
@[simp] theorem writeCal_pending (s : State) (h v : Sample) : (s.writeCal h v).pending = s.pending := rfl
@[simp] theorem writeCal_response (s : State) (h v : Sample) : (s.writeCal h v).response = s.response := rfl

@[simp] theorem writeLatch_status (s : State) (b : Button) (v : Bool) : (s.writeLatch b v).status = s.status := rfl
@[simp] theorem writeLatch_resX (s : State) (b : Button) (v : Bool) : (s.writeLatch b v).resX = s.resX := rfl
@[simp] theorem writeLatch_resY (s : State) (b : Button) (v : Bool) : (s.writeLatch b v).resY = s.resY := rfl
@[simp] theorem writeLatch_resMag (s : State) (b : Button) (v : Bool) : (s.writeLatch b v).resMag = s.resMag := rfl
@[simp] theorem writeLatch_resAng (s : State) (b : Button) (v : Bool) : (s.writeLatch b v).resAng = s.resAng := rfl
@[simp] theorem writeLatch_resDir (s : State) (b : Button) (v : Bool) : (s.writeLatch b v).resDir = s.resDir := rfl
@[simp] theorem writeLatch_resBit (s : State) (b : Button) (v : Bool) : (s.writeLatch b v).resBit = s.resBit := rfl
@[simp] theorem writeLatch_calX0 (s : State) (b : Button) (v : Bool) : (s.writeLatch b v).calX0 = s.calX0 := rfl
@[simp] theorem writeLatch_calY0 (s : State) (b : Button) (v : Bool) : (s.writeLatch b v).calY0 = s.calY0 := rfl
@[simp] theorem writeLatch_latch (s : State) (b : Button) (v : Bool) : (s.writeLatch b v).latch = setLine s.latch b v := rfl
@[simp] theorem writeLatch_level (s : State) (b : Button) (v : Bool) : (s.writeLatch b v).level = s.level := rfl
@[simp] theorem writeLatch_ainH (s : State) (b : Button) (v : Bool) : (s.writeLatch b v).ainH = s.ainH := rfl
@[simp] theorem writeLatch_ainV (s : State) (b : Button) (v : Bool) : (s.writeLatch b v).ainV = s.ainV := rfl
@[simp] theorem writeLatch_basePage (s : State) (b : Button) (v : Bool) : (s.writeLatch b v).basePage = s.basePage := rfl
@[simp] theorem writeLatch_pending (s : State) (b : Button) (v : Bool) : (s.writeLatch b v).pending = s.pending := rfl
@[simp] theorem writeLatch_response (s : State) (b : Button) (v : Bool) : (s.writeLatch b v).response = s.response := rfl

@[simp] theorem clearLatches_status (s : State) : (s.clearLatches).status = s.status := rfl
@[simp] theorem clearLatches_resX (s : State) : (s.clearLatches).resX = s.resX := rfl
@[simp] theorem clearLatches_resY (s : State) : (s.clearLatches).resY = s.resY := rfl
@[simp] theorem clearLatches_resMag (s : State) : (s.clearLatches).resMag = s.resMag := rfl
@[simp] theorem clearLatches_resAng (s : State) : (s.clearLatches).resAng = s.resAng := rfl
@[simp] theorem clearLatches_resDir (s : State) : (s.clearLatches).resDir = s.resDir := rfl
@[simp] theorem clearLatches_resBit (s : State) : (s.clearLatches).resBit = s.resBit := rfl
@[simp] theorem clearLatches_calX0 (s : State) : (s.clearLatches).calX0 = s.calX0 := rfl
@[simp] theorem clearLatches_calY0 (s : State) : (s.clearLatches).calY0 = s.calY0 := rfl
@[simp] theorem clearLatches_latch (s : State) : (s.clearLatches).latch = 0 := rfl
@[simp] theorem clearLatches_level (s : State) : (s.clearLatches).level = s.level := rfl
@[simp] theorem clearLatches_ainH (s : State) : (s.clearLatches).ainH = s.ainH := rfl
@[simp] theorem clearLatches_ainV (s : State) : (s.clearLatches).ainV = s.ainV := rfl
@[simp] theorem clearLatches_basePage (s : State) : (s.clearLatches).basePage = s.basePage := rfl
@[simp] theorem clearLatches_pending (s : State) : (s.clearLatches).pending = s.pending := rfl
@[simp] theorem clearLatches_response (s : State) : (s.clearLatches).response = s.response := rfl

@[simp] theorem writeLevel_status (s : State) (b : Button) (l : Bool) : (s.writeLevel b l).status = s.status := rfl
@[simp] theorem writeLevel_resX (s : State) (b : Button) (l : Bool) : (s.writeLevel b l).resX = s.resX := rfl
@[simp] theorem writeLevel_resY (s : State) (b : Button) (l : Bool) : (s.writeLevel b l).resY = s.resY := rfl
@[simp] theorem writeLevel_resMag (s : State) (b : Button) (l : Bool) : (s.writeLevel b l).resMag = s.resMag := rfl
@[simp] theorem writeLevel_resAng (s : State) (b : Button) (l : Bool) : (s.writeLevel b l).resAng = s.resAng := rfl
@[simp] theorem writeLevel_resDir (s : State) (b : Button) (l : Bool) : (s.writeLevel b l).resDir = s.resDir := rfl
@[simp] theorem writeLevel_resBit (s : State) (b : Button) (l : Bool) : (s.writeLevel b l).resBit = s.resBit := rfl
@[simp] theorem writeLevel_calX0 (s : State) (b : Button) (l : Bool) : (s.writeLevel b l).calX0 = s.calX0 := rfl
@[simp] theorem writeLevel_calY0 (s : State) (b : Button) (l : Bool) : (s.writeLevel b l).calY0 = s.calY0 := rfl
@[simp] theorem writeLevel_latch (s : State) (b : Button) (l : Bool) : (s.writeLevel b l).latch = s.latch := rfl
@[simp] theorem writeLevel_level (s : State) (b : Button) (l : Bool) : (s.writeLevel b l).level = setLine s.level b l := rfl
@[simp] theorem writeLevel_ainH (s : State) (b : Button) (l : Bool) : (s.writeLevel b l).ainH = s.ainH := rfl
@[simp] theorem writeLevel_ainV (s : State) (b : Button) (l : Bool) : (s.writeLevel b l).ainV = s.ainV := rfl
@[simp] theorem writeLevel_basePage (s : State) (b : Button) (l : Bool) : (s.writeLevel b l).basePage = s.basePage := rfl
@[simp] theorem writeLevel_pending (s : State) (b : Button) (l : Bool) : (s.writeLevel b l).pending = s.pending := rfl
@[simp] theorem writeLevel_response (s : State) (b : Button) (l : Bool) : (s.writeLevel b l).response = s.response := rfl

@[simp] theorem respond_status (s : State) (r : Response) : (s.respond r).status = s.status := rfl
@[simp] theorem respond_resX (s : State) (r : Response) : (s.respond r).resX = s.resX := rfl
@[simp] theorem respond_resY (s : State) (r : Response) : (s.respond r).resY = s.resY := rfl
@[simp] theorem respond_resMag (s : State) (r : Response) : (s.respond r).resMag = s.resMag := rfl
@[simp] theorem respond_resAng (s : State) (r : Response) : (s.respond r).resAng = s.resAng := rfl
@[simp] theorem respond_resDir (s : State) (r : Response) : (s.respond r).resDir = s.resDir := rfl
@[simp] theorem respond_resBit (s : State) (r : Response) : (s.respond r).resBit = s.resBit := rfl
@[simp] theorem respond_calX0 (s : State) (r : Response) : (s.respond r).calX0 = s.calX0 := rfl
@[simp] theorem respond_calY0 (s : State) (r : Response) : (s.respond r).calY0 = s.calY0 := rfl
@[simp] theorem respond_latch (s : State) (r : Response) : (s.respond r).latch = s.latch := rfl
@[simp] theorem respond_level (s : State) (r : Response) : (s.respond r).level = s.level := rfl
@[simp] theorem respond_ainH (s : State) (r : Response) : (s.respond r).ainH = s.ainH := rfl
@[simp] theorem respond_ainV (s : State) (r : Response) : (s.respond r).ainV = s.ainV := rfl
@[simp] theorem respond_basePage (s : State) (r : Response) : (s.respond r).basePage = s.basePage := rfl
@[simp] theorem respond_pending (s : State) (r : Response) : (s.respond r).pending = s.pending := rfl
@[simp] theorem respond_response (s : State) (r : Response) : (s.respond r).response = r := rfl

@[simp] theorem analogStep_status (s : State) (h v : Sample) : (analogStep h v s).status = s.status := rfl
@[simp] theorem analogStep_resX (s : State) (h v : Sample) : (analogStep h v s).resX = s.resX := rfl
@[simp] theorem analogStep_resY (s : State) (h v : Sample) : (analogStep h v s).resY = s.resY := rfl
@[simp] theorem analogStep_resMag (s : State) (h v : Sample) : (analogStep h v s).resMag = s.resMag := rfl
@[simp] theorem analogStep_resAng (s : State) (h v : Sample) : (analogStep h v s).resAng = s.resAng := rfl
@[simp] theorem analogStep_resDir (s : State) (h v : Sample) : (analogStep h v s).resDir = s.resDir := rfl
@[simp] theorem analogStep_resBit (s : State) (h v : Sample) : (analogStep h v s).resBit = s.resBit := rfl
@[simp] theorem analogStep_calX0 (s : State) (h v : Sample) : (analogStep h v s).calX0 = s.calX0 := rfl
@[simp] theorem analogStep_calY0 (s : State) (h v : Sample) : (analogStep h v s).calY0 = s.calY0 := rfl
@[simp] theorem analogStep_latch (s : State) (h v : Sample) : (analogStep h v s).latch = s.latch := rfl
@[simp] theorem analogStep_level (s : State) (h v : Sample) : (analogStep h v s).level = s.level := rfl
@[simp] theorem analogStep_ainH (s : State) (h v : Sample) : (analogStep h v s).ainH = h := rfl
@[simp] theorem analogStep_ainV (s : State) (h v : Sample) : (analogStep h v s).ainV = v := rfl
@[simp] theorem analogStep_basePage (s : State) (h v : Sample) : (analogStep h v s).basePage = s.basePage := rfl
@[simp] theorem analogStep_pending (s : State) (h v : Sample) : (analogStep h v s).pending = s.pending := rfl
@[simp] theorem analogStep_response (s : State) (h v : Sample) : (analogStep h v s).response = s.response := rfl

/-! RESET (70_reset_and_hazards.md R125) and the conditional flag. -/

@[simp] theorem resetStep_status (s : State) (btnIn : Lines) : (resetStep btnIn s).status = { init := false, nocal := false, domerr := false, illegal := false, sat := false } := rfl
@[simp] theorem resetStep_resX (s : State) (btnIn : Lines) : (resetStep btnIn s).resX = 0 := rfl
@[simp] theorem resetStep_resY (s : State) (btnIn : Lines) : (resetStep btnIn s).resY = 0 := rfl
@[simp] theorem resetStep_resMag (s : State) (btnIn : Lines) : (resetStep btnIn s).resMag = 0 := rfl
@[simp] theorem resetStep_resAng (s : State) (btnIn : Lines) : (resetStep btnIn s).resAng = 0 := rfl
@[simp] theorem resetStep_resDir (s : State) (btnIn : Lines) : (resetStep btnIn s).resDir = 0 := rfl
@[simp] theorem resetStep_resBit (s : State) (btnIn : Lines) : (resetStep btnIn s).resBit = 0 := rfl
@[simp] theorem resetStep_calX0 (s : State) (btnIn : Lines) : (resetStep btnIn s).calX0 = 0 := rfl
@[simp] theorem resetStep_calY0 (s : State) (btnIn : Lines) : (resetStep btnIn s).calY0 = 0 := rfl
@[simp] theorem resetStep_latch (s : State) (btnIn : Lines) : (resetStep btnIn s).latch = 0 := rfl
@[simp] theorem resetStep_level (s : State) (btnIn : Lines) : (resetStep btnIn s).level = btnIn := rfl
@[simp] theorem resetStep_ainH (s : State) (btnIn : Lines) : (resetStep btnIn s).ainH = s.ainH := rfl
@[simp] theorem resetStep_ainV (s : State) (btnIn : Lines) : (resetStep btnIn s).ainV = s.ainV := rfl
@[simp] theorem resetStep_basePage (s : State) (btnIn : Lines) : (resetStep btnIn s).basePage = s.basePage := rfl
@[simp] theorem resetStep_pending (s : State) (btnIn : Lines) : (resetStep btnIn s).pending = s.pending := rfl
@[simp] theorem resetStep_response (s : State) (btnIn : Lines) : (resetStep btnIn s).response = .noResponse := rfl

@[simp] theorem setFlagIf_status (s : State) (c : Bool) (f : StickyFlag) :
    (s.setFlagIf c f).status = if c then s.status.set f else s.status := by cases c <;> rfl
@[simp] theorem setFlagIf_resX (s : State) (c : Bool) (f : StickyFlag) : (s.setFlagIf c f).resX = s.resX := by cases c <;> rfl
@[simp] theorem setFlagIf_resY (s : State) (c : Bool) (f : StickyFlag) : (s.setFlagIf c f).resY = s.resY := by cases c <;> rfl
@[simp] theorem setFlagIf_resMag (s : State) (c : Bool) (f : StickyFlag) : (s.setFlagIf c f).resMag = s.resMag := by cases c <;> rfl
@[simp] theorem setFlagIf_resAng (s : State) (c : Bool) (f : StickyFlag) : (s.setFlagIf c f).resAng = s.resAng := by cases c <;> rfl
@[simp] theorem setFlagIf_resDir (s : State) (c : Bool) (f : StickyFlag) : (s.setFlagIf c f).resDir = s.resDir := by cases c <;> rfl
@[simp] theorem setFlagIf_resBit (s : State) (c : Bool) (f : StickyFlag) : (s.setFlagIf c f).resBit = s.resBit := by cases c <;> rfl
@[simp] theorem setFlagIf_calX0 (s : State) (c : Bool) (f : StickyFlag) : (s.setFlagIf c f).calX0 = s.calX0 := by cases c <;> rfl
@[simp] theorem setFlagIf_calY0 (s : State) (c : Bool) (f : StickyFlag) : (s.setFlagIf c f).calY0 = s.calY0 := by cases c <;> rfl
@[simp] theorem setFlagIf_latch (s : State) (c : Bool) (f : StickyFlag) : (s.setFlagIf c f).latch = s.latch := by cases c <;> rfl
@[simp] theorem setFlagIf_level (s : State) (c : Bool) (f : StickyFlag) : (s.setFlagIf c f).level = s.level := by cases c <;> rfl
@[simp] theorem setFlagIf_ainH (s : State) (c : Bool) (f : StickyFlag) : (s.setFlagIf c f).ainH = s.ainH := by cases c <;> rfl
@[simp] theorem setFlagIf_ainV (s : State) (c : Bool) (f : StickyFlag) : (s.setFlagIf c f).ainV = s.ainV := by cases c <;> rfl
@[simp] theorem setFlagIf_basePage (s : State) (c : Bool) (f : StickyFlag) : (s.setFlagIf c f).basePage = s.basePage := by cases c <;> rfl
@[simp] theorem setFlagIf_pending (s : State) (c : Bool) (f : StickyFlag) : (s.setFlagIf c f).pending = s.pending := by cases c <;> rfl
@[simp] theorem setFlagIf_response (s : State) (c : Bool) (f : StickyFlag) : (s.setFlagIf c f).response = s.response := by cases c <;> rfl

/-! The flags. -/

@[simp] theorem set_init (st : Status) (f : StickyFlag) : (st.set f).init = st.init := by cases f <;> rfl

@[simp] theorem flag_set (st : Status) (f g : StickyFlag) : (st.set f).flag g = (decide (f = g) || st.flag g) := by
  cases f <;> cases g <;> rfl

/-- Setting a flag that is already set leaves it set (10_state.md R17). -/
@[simp] theorem set_set (st : Status) (f : StickyFlag) : (st.set f).set f = st.set f := by cases f <;> rfl

end Sys2Proof.Laws
end

