-- ==== Sys2Proof/Laws/Operands.lean ====
section
/-! SUPPORT. What the operand operations do: a button's bit after it is set, signed values through a register, and the
register map (10_state.md R15, R25, R26; 20_memory.md R35, R40). -/

namespace Sys2Proof.Laws

open Sys2Proof.Machine

/-- Setting one button's bit sets that bit and leaves the others (R25, R26). -/
@[simp] theorem lineBit_setLine (v : Lines) (b c : Button) (l : Bool) :
    lineBit (setLine v b l) c = if b = c then l else lineBit v c := by
  revert v; cases b <;> cases c <;> cases l <;> decide

@[simp] theorem lineBit_zero (b : Button) : lineBit 0#5 b = false := by cases b <;> rfl

/-- Lines are equal when they agree on the five buttons. -/
theorem lines_ext {v w : Lines} (h : ∀ b, lineBit v b = lineBit w b) : v = w := by
  have ha := h .btnA
  have hb := h .btnB
  have hx := h .btnX
  have hy := h .btnY
  have hs := h .btnStart
  clear h
  revert v w
  decide

/-- The five indices are those of BTN (30_encoding.md R53). -/
theorem buttonIndex_lt (b : Button) : buttonIndex b < 5 := by cases b <;> decide

/-- A value in the signed range survives the register (00_scope.md R6). -/
theorem sext32_toInt {v : Int} (h0 : -2147483648 ≤ v) (h1 : v < 2147483648) : (sext32 v).toInt = v := by
  rw [sext32, BitVec.toInt_ofInt]
  exact Int.bmod_eq_of_le (by omega) (by omega)

/-- The register at a register's own offset is that register (R35). -/
@[simp] theorem atOffset_offset (r : Reg) : Reg.atOffset r.offset = some r := by cases r <;> rfl

/-- What answers at an offset: the register whose offset it is, and nothing else (R35, R36). -/
theorem atOffset_eq_some {off : Nat} {r : Reg} (h : Reg.atOffset off = some r) : off = r.offset := by
  unfold Reg.atOffset at h
  split at h <;> first | (cases h; rfl) | simp at h

theorem offset_lt_window (r : Reg) : r.offset < Config.windowBytes := by cases r <;> decide

theorem base_aligned (s : State) : s.base % 64 = 0 := by simp [State.base, Nat.mul_mod_right]

end Sys2Proof.Laws
end

