-- ==== Sys2Proof/Laws/Ops.lean ====
section
/-! SUPPORT. What the shared operations do, each said once: `sample`, `abandon`, `calibrated`. -/

namespace Sys2Proof.Laws

open Sys2Proof.Machine

/-- A sample is the port's value, at most 1.0 (40_geometry.md R63). -/
theorem saturate_toNat (a : Sample) : (saturate a).toNat = min a.toNat 65536 := by
  unfold saturate
  split
  · rename_i h; simp only [Config.sampleMax] at h ⊢; rw [min_eq_right (by omega)]; rfl
  · rename_i h; simp only [Config.sampleMax] at h ⊢; rw [min_eq_left (by omega)]

theorem saturate_le (a : Sample) : (saturate a).toNat ≤ 65536 := by rw [saturate_toNat]; exact min_le_right _ _

/-- `sample()` answers both saturated ports and changes nothing but SAT (R63). -/
theorem sample_spec (s : State) :
    sample s = (⟨saturate s.ainH, saturate s.ainV⟩, s.setFlagIf (overRange s.ainH || overRange s.ainV) .sat) := rfl

/-- An abandoned command has a next state: its flag set, and nothing else changed (60_exceptions.md R110). -/
theorem abandon_spec (f : StickyFlag) (s : State) : abandon f s = .next (s.setFlag f) := rfl

/-- The two ways of a geometry command (40_geometry.md R78). -/
theorem calibrated_cases {run : State → State} {s t : State} (h : calibrated run s = .next t) :
    (s.status.init = true ∧ t = run s) ∨ (s.status.init = false ∧ t = s.setFlag .nocal) := by
  unfold calibrated at h
  split at h
  · rename_i hi; cases h; exact .inl ⟨hi, rfl⟩
  · rename_i hi; cases h; exact .inr ⟨by simpa using hi, rfl⟩

theorem calibrated_of_init {run : State → State} {s : State} (h : s.status.init = true) :
    calibrated run s = .next (run s) := by simp [calibrated, h]

theorem calibrated_of_not_init {run : State → State} {s : State} (h : s.status.init = false) :
    calibrated run s = .next (s.setFlag .nocal) := by simp [calibrated, abandon, h]

end Sys2Proof.Laws
end

