-- ==== Sys2Proof/Laws/Geometry.lean ====
section
/-! SUPPORT. What each stage of the pipeline answers and its ranges (40_geometry.md R65 to R73), and the composite
functions spelled out once (R77). -/

namespace Sys2Proof.Laws

open Sys2Proof.Machine

theorem radicandUnit_eq : radicandUnit = 8589934592 := by simp [radicandUnit, Config.one]

/-- The magnitude of a mapped axis before its sign, squared, is at most the exact real one (R67). -/
theorem mapAxis_sq_le (c o : Int) :
    mapAxis c o * mapAxis c o * radicandUnit ≤ c * c * max (radicand o) 0 := by
  have hS : (0 : Int) < radicandUnit := by rw [radicandUnit_eq]; norm_num
  have hn : 0 ≤ c * c * max (radicand o) 0 := mul_nonneg (mul_self_nonneg c) (le_max_right _ _)
  set q := (c * c * max (radicand o) 0 / radicandUnit).toNat with hq
  have hq' : (q : Int) = c * c * max (radicand o) 0 / radicandUnit := Int.toNat_of_nonneg (Int.ediv_nonneg hn hS.le)
  have h1 : ((isqrt q : Int)) * isqrt q ≤ q := by exact_mod_cast isqrt_sq_le q
  have h2 : (q : Int) * radicandUnit ≤ c * c * max (radicand o) 0 := by rw [hq']; exact Int.ediv_mul_le _ hS.ne'
  have hs : c.sign * c.sign ≤ 1 := by
    rcases lt_trichotomy c 0 with h | h | h
    · simp [Int.sign_eq_neg_one_of_neg h]
    · simp [h]
    · simp [Int.sign_eq_one_of_pos h]
  have hs0 : 0 ≤ c.sign * c.sign := mul_self_nonneg _
  have h3 : mapAxis c o * mapAxis c o ≤ q := by
    calc mapAxis c o * mapAxis c o = c.sign * c.sign * (isqrt q * isqrt q) := by simp only [mapAxis]; rw [← hq]; ring
      _ ≤ 1 * (isqrt q * isqrt q) := by apply mul_le_mul_of_nonneg_right hs; positivity
      _ ≤ q := by rw [one_mul]; exact h1
  nlinarith

/-- R73, R75(b): a mapped axis is no longer than the raw one. -/
theorem mapAxis_natAbs_le (c o : Int) : (mapAxis c o).natAbs ≤ c.natAbs := by
  have h := mapAxis_sq_le c o
  have hr : max (radicand o) 0 ≤ radicandUnit := by
    apply max_le
    · simp only [radicand]; nlinarith [mul_self_nonneg o]
    · rw [radicandUnit_eq]; norm_num
  have hS : (0 : Int) < radicandUnit := by rw [radicandUnit_eq]; norm_num
  have : mapAxis c o * mapAxis c o ≤ c * c := by
    have h1 : c * c * max (radicand o) 0 ≤ c * c * radicandUnit := mul_le_mul_of_nonneg_left hr (mul_self_nonneg c)
    have := h.trans h1
    exact le_of_mul_le_mul_right this hS
  exact Int.natAbs_le_iff_mul_self_le.2 this

/-- R73: with raw coordinates in [-2.0, 2.0], the magnitude is at most 2.0. -/
theorem magnitude_le {p : Point} (hx : p.x.natAbs ≤ 131072) (hy : p.y.natAbs ≤ 131072) :
    magnitude (polarFrame (squareToCircle p)) ≤ 131072 := by
  have h1 := mapAxis_sq_le p.x p.y
  have h2 := mapAxis_sq_le p.y p.x
  simp only [magnitude, polarFrame, squareToCircle]
  apply isqrt_le_of_le_sq
  generalize mapAxis p.x p.y = a at *
  generalize mapAxis p.y p.x = b at *
  have hu : p.x * p.x ≤ 2 * radicandUnit := by
    rw [radicandUnit_eq]; have := Int.natAbs_le_iff_mul_self_le (a := p.x) (b := 131072) |>.1 hx; omega
  have hv : p.y * p.y ≤ 2 * radicandUnit := by
    rw [radicandUnit_eq]; have := Int.natAbs_le_iff_mul_self_le (a := p.y) (b := 131072) |>.1 hy; omega
  have hu0 := mul_self_nonneg p.x
  have hv0 := mul_self_nonneg p.y
  simp only [radicand] at h1 h2
  generalize p.x * p.x = u at *
  generalize p.y * p.y = v at *
  have hS : (0 : Int) < radicandUnit := by rw [radicandUnit_eq]; norm_num
  have key : (a * a + b * b) * radicandUnit ≤ 2 * radicandUnit * radicandUnit := by
    rcases le_total (radicandUnit - v) 0 with hr | hr <;> rcases le_total (radicandUnit - u) 0 with hr' | hr'
    · rw [max_eq_right hr] at h1; rw [max_eq_right hr'] at h2; nlinarith
    · rw [max_eq_right hr] at h1; rw [max_eq_left hr'] at h2; nlinarith
    · rw [max_eq_left hr] at h1; rw [max_eq_right hr'] at h2; nlinarith
    · rw [max_eq_left hr] at h1; rw [max_eq_left hr'] at h2; nlinarith [mul_nonneg hr hr']
  have : a * a + b * b ≤ 2 * radicandUnit := le_of_mul_le_mul_right key hS
  rw [radicandUnit_eq] at this
  have : b * b + a * a ≤ 17179869184 := by linarith
  omega

/-- A vector whose magnitude passes the noise floor is not zero (R70). -/
theorem ne_zero_of_magnitude {v : Point} (h : magnitude v ≠ 0) : v ≠ ⟨0, 0⟩ := by
  rintro rfl; exact h (by simp [magnitude, isqrt_zero])

/-- The two ways of a polar reading (R70, R71). -/
theorem polarOf_cases (v : Point) :
    (10 * magnitude v < 65536 ∧ polarOf v = sentinel) ∨
      (6554 ≤ magnitude v ∧ v ≠ ⟨0, 0⟩ ∧ polarOf v = ⟨magnitude v, angleUnits v⟩) := by
  unfold polarOf
  simp only [Config.noiseInverse, Config.one]
  split
  · rename_i h; exact .inl ⟨h, rfl⟩
  · rename_i h; exact .inr ⟨by omega, ne_zero_of_magnitude (by omega), rfl⟩

/-- R73: the angle of a reading is the sentinel -1.0 or in [0, 360) degrees. -/
theorem polarOf_ang (v : Point) : (polarOf v).ang = -65536 ∨ (0 ≤ (polarOf v).ang ∧ (polarOf v).ang ≤ 23592959) := by
  rcases polarOf_cases v with ⟨-, h⟩ | ⟨-, hv, h⟩ <;> rw [h]
  · left; rfl
  · right; have := angleUnits_lt hv; constructor <;> simp only <;> omega

/-- R73: the magnitude of a reading is 0 or at least 0x199A. -/
theorem polarOf_mag (v : Point) : (polarOf v).mag = 0 ∨ (6554 ≤ (polarOf v).mag ∧ (polarOf v).mag = magnitude v) := by
  rcases polarOf_cases v with ⟨-, h⟩ | ⟨hm, -, h⟩ <;> rw [h]
  · left; rfl
  · right; exact ⟨by simpa using hm, rfl⟩

/-- R72: codes 9 to 15 are never produced. -/
theorem direction_code_le (d : Direction) : d.code.toNat ≤ 8 := by cases d <;> decide

/-- R73: with samples and origin in 0 to 0x10000 the raw coordinates are in [-2.0, 2.0]. -/
theorem center_range {h v x0 y0 : Nat} (hh : h ≤ 65536) (hv : v ≤ 65536) (hx : x0 ≤ 65536) (hy : y0 ≤ 65536) :
    (center h v x0 y0).x.natAbs ≤ 131072 ∧ (center h v x0 y0).y.natAbs ≤ 131072 := by
  simp only [center]; constructor <;> omega

/-! The composites (R77). -/

/-- The raw coordinate of the ports and origin of a state. -/
def rawPoint (s : State) : Point :=
  center (saturate s.ainH).toNat (saturate s.ainV).toNat s.calX0.toNat s.calY0.toNat

theorem geomRaw_spec (s : State) :
    geomRaw s = (rawPoint s, s.setFlagIf (overRange s.ainH || overRange s.ainV) .sat) := by
  simp [geomRaw, sample_spec, rawPoint]

theorem geomMapped_spec (s : State) :
    geomMapped s = (squareToCircle (rawPoint s),
      (s.setFlagIf (overRange s.ainH || overRange s.ainV) .sat).setFlagIf (domainError (rawPoint s)) .domerr) := by
  simp [geomMapped, geomRaw_spec]

theorem geomPolar_spec (s : State) :
    geomPolar s = (polarOf (polarFrame (squareToCircle (rawPoint s))),
      (s.setFlagIf (overRange s.ainH || overRange s.ainV) .sat).setFlagIf (domainError (rawPoint s)) .domerr) := by
  simp [geomPolar, geomMapped_spec]

end Sys2Proof.Laws
end

