-- ==== Sys2Proof/Laws/PerInstr.lean ====
section
/-! SUPPORT. The family FormatC, one lemma for each command: its word is the format "C" of 30_encoding.md R51 filled with
its OP and its BTN, every reserved bit 0, and it passes the checks of R53 to R56. -/

namespace Sys2Proof.Laws.FormatC

/-- The command's word is `16 * OP + BTN` (R51, R52), and its fields are those of a legal word (R56). -/
def Statement (i : Instr) : Prop :=
  (encode i).toNat = 16 * i.op.toNat + (match i.button with | some b => b.code.toNat | none => 0) ∧
    i.wellFormed = true

theorem nop : Statement .nop := by unfold Statement; decide

theorem init : Statement .init := by unfold Statement; decide

theorem raw : Statement .raw := by unfold Statement; decide

theorem mapped : Statement .mapped := by unfold Statement; decide

theorem polar : Statement .polar := by unfold Statement; decide

theorem mag : Statement .mag := by unfold Statement; decide

theorem angle : Statement .angle := by unfold Statement; decide

theorem dir : Statement .dir := by unfold Statement; decide

theorem pressedA : Statement .pressedA := by unfold Statement; decide

theorem pressedB : Statement .pressedB := by unfold Statement; decide

theorem pressedX : Statement .pressedX := by unfold Statement; decide

theorem pressedY : Statement .pressedY := by unfold Statement; decide

theorem pressedStart : Statement .pressedStart := by unfold Statement; decide

theorem heldA : Statement .heldA := by unfold Statement; decide

theorem heldB : Statement .heldB := by unfold Statement; decide

theorem heldX : Statement .heldX := by unfold Statement; decide

theorem heldY : Statement .heldY := by unfold Statement; decide

theorem heldStart : Statement .heldStart := by unfold Statement; decide

theorem resetall : Statement .resetall := by unfold Statement; decide

theorem clrerr : Statement .clrerr := by unfold Statement; decide

end Sys2Proof.Laws.FormatC
end

