-- ==== Sys2Proof/Laws/Step.lean ====
section
/-! SUPPORT. What one step can do, said once (00_scope.md R13): every invariant follows from `step_cases`. -/

namespace Sys2Proof.Laws

open Sys2Proof.Machine

/-! The geometry commands as runs of the pipeline behind their common precondition (40_geometry.md R78 to R84). -/

theorem exec_raw (s : State) :
    exec .raw s = calibrated (fun s => (geomRaw s).2.writeXY (geomRaw s).1.x (geomRaw s).1.y) s := rfl

theorem exec_mapped (s : State) :
    exec .mapped s = calibrated (fun s => (geomMapped s).2.writeXY (geomMapped s).1.x (geomMapped s).1.y) s := rfl

theorem exec_polar (s : State) :
    exec .polar s =
      calibrated (fun s => ((geomPolar s).2.writeMag (geomPolar s).1.mag).writeAng (geomPolar s).1.ang) s := rfl

theorem exec_mag (s : State) : exec .mag s = calibrated (fun s => (geomPolar s).2.writeMag (geomPolar s).1.mag) s := rfl

theorem exec_angle (s : State) :
    exec .angle s = calibrated (fun s => (geomPolar s).2.writeAng (geomPolar s).1.ang) s := rfl

theorem exec_dir (s : State) :
    exec .dir s = calibrated (fun s => (geomPolar s).2.writeDir (discretize (geomPolar s).1.ang).code) s := rfl

/-- Every command has a next state (R14): no meaning faults or refuses. -/
theorem exec_completes (i : Instr) (s : State) : ∃ t, exec i s = .next t := by
  have cal : ∀ run : State → State, ∃ t, calibrated run s = .next t := fun run => by
    rcases h : s.status.init
    · exact ⟨_, calibrated_of_not_init h⟩
    · exact ⟨_, calibrated_of_init h⟩
  cases i
  case raw => exact (exec_raw s).symm ▸ cal _
  case mapped => exact (exec_mapped s).symm ▸ cal _
  case polar => exact (exec_polar s).symm ▸ cal _
  case mag => exact (exec_mag s).symm ▸ cal _
  case angle => exact (exec_angle s).symm ▸ cal _
  case dir => exact (exec_dir s).symm ▸ cal _
  all_goals exact ⟨_, rfl⟩

/-- No command touches what the environment drives: LEVEL, the ports, BASE, the steps to come; and the answer on the bus
is not the command's (41_buttons.md R98; 10_state.md R32). -/
theorem exec_keeps_environment {i : Instr} {s t : State} (h : exec i s = .next t) :
    t.level = s.level ∧ t.ainH = s.ainH ∧ t.ainV = s.ainV ∧ t.basePage = s.basePage ∧ t.pending = s.pending ∧
      t.response = s.response := by
  cases i
  case raw => rw [exec_raw] at h; rcases calibrated_cases h with ⟨-, rfl⟩ | ⟨-, rfl⟩ <;> simp [geomRaw_spec]
  case mapped => rw [exec_mapped] at h; rcases calibrated_cases h with ⟨-, rfl⟩ | ⟨-, rfl⟩ <;> simp [geomMapped_spec]
  case polar => rw [exec_polar] at h; rcases calibrated_cases h with ⟨-, rfl⟩ | ⟨-, rfl⟩ <;> simp [geomPolar_spec]
  case mag => rw [exec_mag] at h; rcases calibrated_cases h with ⟨-, rfl⟩ | ⟨-, rfl⟩ <;> simp [geomPolar_spec]
  case angle => rw [exec_angle] at h; rcases calibrated_cases h with ⟨-, rfl⟩ | ⟨-, rfl⟩ <;> simp [geomPolar_spec]
  case dir => rw [exec_dir] at h; rcases calibrated_cases h with ⟨-, rfl⟩ | ⟨-, rfl⟩ <;> simp [geomPolar_spec]
  case init => cases h; simp
  all_goals (cases h; exact ⟨rfl, rfl, rfl, rfl, rfl, rfl⟩)

/-- The state a sampling command writes its results into: SAT set where its sample saturates (40_geometry.md R63). -/
def sampledState (s : State) : State := s.setFlagIf (overRange s.ainH || overRange s.ainV) .sat

/-- The state a mapping command writes its results into: DOMERR set too where a radicand is negative (R66). -/
def mappedState (s : State) : State := (sampledState s).setFlagIf (domainError (rawPoint s)) .domerr

/-- All that one command can do. -/
theorem exec_cases {i : Instr} {s t : State} (h : exec i s = .next t) :
    (i ∈ [Instr.raw, .mapped, .polar, .mag, .angle, .dir] ∧ s.status.init = false ∧ t = s.setFlag .nocal) ∨
    (i = .raw ∧ s.status.init = true ∧ t = (sampledState s).writeXY (rawPoint s).x (rawPoint s).y) ∨
    (s.status.init = true ∧ ∃ p r, p = squareToCircle (rawPoint s) ∧ r = polarOf (polarFrame p) ∧
      ((i = .mapped ∧ t = (mappedState s).writeXY p.x p.y) ∨
        (i = .polar ∧ t = ((mappedState s).writeMag r.mag).writeAng r.ang) ∨
        (i = .mag ∧ t = (mappedState s).writeMag r.mag) ∨
        (i = .angle ∧ t = (mappedState s).writeAng r.ang) ∨
        (i = .dir ∧ t = (mappedState s).writeDir (discretize r.ang).code))) ∨
    (i = .nop ∧ t = s) ∨
    (i = .init ∧ t = (((sampledState s).writeCal (saturate s.ainH) (saturate s.ainV)).clearLatches).setInit) ∨
    (i = .clrerr ∧ t = s.clearFlags) ∨
    (i = .resetall ∧ t = s.clearLatches) ∨
    (∃ b, i = .pressed b ∧ t = pressed b s) ∨
    (∃ b, i = .held b ∧ t = held b s) := by
  cases i
  case raw =>
    rw [exec_raw] at h
    rcases calibrated_cases h with ⟨hi, rfl⟩ | ⟨hi, rfl⟩
    · rw [geomRaw_spec]; exact .inr (.inl ⟨rfl, hi, rfl⟩)
    · exact .inl ⟨by simp, hi, rfl⟩
  case mapped =>
    rw [exec_mapped] at h
    rcases calibrated_cases h with ⟨hi, rfl⟩ | ⟨hi, rfl⟩
    · rw [geomMapped_spec]; exact .inr (.inr (.inl ⟨hi, _, _, rfl, rfl, .inl ⟨rfl, rfl⟩⟩))
    · exact .inl ⟨by simp, hi, rfl⟩
  case polar =>
    rw [exec_polar] at h
    rcases calibrated_cases h with ⟨hi, rfl⟩ | ⟨hi, rfl⟩
    · rw [geomPolar_spec]; exact .inr (.inr (.inl ⟨hi, _, _, rfl, rfl, .inr (.inl ⟨rfl, rfl⟩)⟩))
    · exact .inl ⟨by simp, hi, rfl⟩
  case mag =>
    rw [exec_mag] at h
    rcases calibrated_cases h with ⟨hi, rfl⟩ | ⟨hi, rfl⟩
    · rw [geomPolar_spec]; exact .inr (.inr (.inl ⟨hi, _, _, rfl, rfl, .inr (.inr (.inl ⟨rfl, rfl⟩))⟩))
    · exact .inl ⟨by simp, hi, rfl⟩
  case angle =>
    rw [exec_angle] at h
    rcases calibrated_cases h with ⟨hi, rfl⟩ | ⟨hi, rfl⟩
    · rw [geomPolar_spec]; exact .inr (.inr (.inl ⟨hi, _, _, rfl, rfl, .inr (.inr (.inr (.inl ⟨rfl, rfl⟩)))⟩))
    · exact .inl ⟨by simp, hi, rfl⟩
  case dir =>
    rw [exec_dir] at h
    rcases calibrated_cases h with ⟨hi, rfl⟩ | ⟨hi, rfl⟩
    · rw [geomPolar_spec]; exact .inr (.inr (.inl ⟨hi, _, _, rfl, rfl, .inr (.inr (.inr (.inr ⟨rfl, rfl⟩)))⟩))
    · exact .inl ⟨by simp, hi, rfl⟩
  case nop => cases h; exact .inr (.inr (.inr (.inl ⟨rfl, rfl⟩)))
  case init => cases h; exact .inr (.inr (.inr (.inr (.inl ⟨rfl, rfl⟩))))
  case clrerr => cases h; exact .inr (.inr (.inr (.inr (.inr (.inl ⟨rfl, rfl⟩)))))
  case resetall => cases h; exact .inr (.inr (.inr (.inr (.inr (.inr (.inl ⟨rfl, rfl⟩))))))
  case pressedA => exact .inr (.inr (.inr (.inr (.inr (.inr (.inr (.inl ⟨.btnA, rfl, Host.Outcome.next.inj h.symm⟩)))))))
  case pressedB => exact .inr (.inr (.inr (.inr (.inr (.inr (.inr (.inl ⟨.btnB, rfl, Host.Outcome.next.inj h.symm⟩)))))))
  case pressedX => exact .inr (.inr (.inr (.inr (.inr (.inr (.inr (.inl ⟨.btnX, rfl, Host.Outcome.next.inj h.symm⟩)))))))
  case pressedY => exact .inr (.inr (.inr (.inr (.inr (.inr (.inr (.inl ⟨.btnY, rfl, Host.Outcome.next.inj h.symm⟩)))))))
  case pressedStart => exact .inr (.inr (.inr (.inr (.inr (.inr (.inr (.inl ⟨.btnStart, rfl, Host.Outcome.next.inj h.symm⟩)))))))
  case heldA => exact .inr (.inr (.inr (.inr (.inr (.inr (.inr (.inr ⟨.btnA, rfl, Host.Outcome.next.inj h.symm⟩)))))))
  case heldB => exact .inr (.inr (.inr (.inr (.inr (.inr (.inr (.inr ⟨.btnB, rfl, Host.Outcome.next.inj h.symm⟩)))))))
  case heldX => exact .inr (.inr (.inr (.inr (.inr (.inr (.inr (.inr ⟨.btnX, rfl, Host.Outcome.next.inj h.symm⟩)))))))
  case heldY => exact .inr (.inr (.inr (.inr (.inr (.inr (.inr (.inr ⟨.btnY, rfl, Host.Outcome.next.inj h.symm⟩)))))))
  case heldStart => exact .inr (.inr (.inr (.inr (.inr (.inr (.inr (.inr ⟨.btnStart, rfl, Host.Outcome.next.inj h.symm⟩)))))))

/-- The two ways of a command word (42_control.md R107, R108). -/
theorem executeWord_cases {w : Word} {s t : State} (h : executeWord w s = .next t) :
    (∃ i, decode w = .legal i ∧ exec i s = .next t) ∨ (∃ why, decode w = .illegal why ∧ t = s.setFlag .illegal) := by
  unfold executeWord at h
  split at h
  · rename_i i hi; exact .inl ⟨i, hi, h⟩
  · rename_i why hw; cases h; exact .inr ⟨why, hw, rfl⟩

theorem executeWord_completes (w : Word) (s : State) : ∃ t, executeWord w s = .next t := by
  unfold executeWord
  split
  · exact exec_completes _ _
  · exact ⟨_, rfl⟩

/-- A read changes nothing but the block's answer (20_memory.md R36, R38, R39, R41, R43). -/
theorem hostRead_spec (bytes addr : Nat) (s : State) : ∃ r, hostRead bytes addr s = .next (s.respond r) := by
  unfold hostRead raiseBusError
  repeat' split
  all_goals exact ⟨_, rfl⟩

/-- A write runs the word of a word access to CMD, and otherwise changes nothing but the block's answer (R42, R44). -/
theorem hostWrite_cases {bytes addr : Nat} {data : Word} {s t : State} (h : hostWrite bytes addr data s = .next t) :
    (bytes = 4 ∧ addr = s.base ∧ ∃ u, executeWord data s = .next u ∧ t = u.respond .okay) ∨ ∃ r, t = s.respond r := by
  unfold hostWrite at h
  split at h
  · rename_i hin
    split at h
    · rename_i hc
      left
      simp only [wordAccess, Bool.and_eq_true, beq_iff_eq, State.inWindow, decide_eq_true_eq, Config.accessBytes] at hc hin
      obtain ⟨⟨h4, -⟩, hoff⟩ := hc
      have : addr - s.base = 0 := atOffset_eq_some hoff
      obtain ⟨u, hu⟩ := executeWord_completes data s
      refine ⟨h4, by omega, u, hu, ?_⟩
      rw [hu] at h; simp only [withOkay, Host.Outcome.next.injEq] at h; exact h.symm
    · cases h; exact .inr ⟨_, rfl⟩
  · cases h; exact .inr ⟨_, rfl⟩

theorem hostWrite_completes (bytes addr : Nat) (data : Word) (s : State) : ∃ t, hostWrite bytes addr data s = .next t := by
  unfold hostWrite
  obtain ⟨u, hu⟩ := executeWord_completes data s
  split
  · split
    · exact ⟨_, by rw [hu]; rfl⟩
    · exact ⟨_, rfl⟩
  · exact ⟨_, rfl⟩

/-- A word access to CMD is one, whatever the word (R35, R38, R39). -/
theorem hostWrite_cmd (data : Word) (s : State) : hostWrite 4 s.base data s = withOkay (executeWord data s) := by
  have h1 : s.inWindow s.base = true := by simp [State.inWindow, Config.windowBytes]
  have h2 : s.base % 4 = 0 := by have := base_aligned s; omega
  simp [hostWrite, h1, wordAccess, h2, Reg.atOffset, Config.accessBytes]

/-- All that one step can do. `s.pending` names the step taken, and `u` is the state it acts on. -/
theorem step_cases {s t : State} (h : step s = .next t) :
    (s.pending = [] ∧ t = s) ∨
    ∃ e rest, s.pending = e :: rest ∧ ∃ u : State, u = { s with pending := rest } ∧
      ((∃ a r, e = .host a ∧ t = u.respond r) ∨
        (∃ i w v, e = .host (.write 4 s.base w) ∧ decode w = .legal i ∧ exec i u = .next v ∧ t = v.respond .okay) ∨
        (∃ why w, e = .host (.write 4 s.base w) ∧ decode w = .illegal why ∧
          t = (u.setFlag .illegal).respond .okay) ∨
        (∃ b l, e = .pin b l ∧ t = pinStep b l u) ∨
        (∃ p q, e = .analog p q ∧ t = analogStep p q u) ∨
        (∃ btnIn, e = .reset btnIn ∧ t = resetStep btnIn u)) := by
  unfold step performNext at h
  split at h
  · rename_i hp; cases h; exact .inl ⟨hp, rfl⟩
  · rename_i e rest hp
    refine .inr ⟨e, rest, hp, _, rfl, ?_⟩
    cases e with
    | host a =>
      cases a with
      | read bytes addr =>
        obtain ⟨r, hr⟩ := hostRead_spec bytes addr { s with pending := rest }
        change hostRead _ _ _ = _ at h
        rw [hr] at h; cases h
        exact .inl ⟨_, _, rfl, rfl⟩
      | write bytes addr data =>
        change hostWrite _ _ _ _ = _ at h
        rcases hostWrite_cases h with ⟨rfl, rfl, u, hu, rfl⟩ | ⟨r, rfl⟩
        · rcases executeWord_cases hu with ⟨i, hi, hx⟩ | ⟨why, hw, rfl⟩
          · exact .inr (.inl ⟨i, data, u, rfl, hi, hx, rfl⟩)
          · exact .inr (.inr (.inl ⟨why, data, rfl, hw, rfl⟩))
        · exact .inl ⟨_, _, rfl, rfl⟩
    | pin b l => cases h; exact .inr (.inr (.inr (.inl ⟨b, l, rfl, rfl⟩)))
    | analog p q => cases h; exact .inr (.inr (.inr (.inr (.inl ⟨p, q, rfl, rfl⟩))))
    | reset btnIn => cases h; exact .inr (.inr (.inr (.inr (.inr ⟨btnIn, rfl, rfl⟩))))

end Sys2Proof.Laws
end

