-- ==== Sys2Proof/Tests/Slice0.lean ====
section
/-! SUPPORT. Named tests. Expected values come from the specification: the encodings of 30_encoding.md R51 to R53 written
out bit by bit, and the vectors and programs of 95_test_vectors.md (each test names its row). The last part shows, for
each statement with hypotheses, values that meet all of them. -/

namespace Sys2Proof.Tests

open Sys2Proof Sys2Proof.Machine Sys2Proof.Safety

/-! ## Well-formedness: each check refuses an ill-formed command word -/

theorem test_wellformed_accepts : (⟨0, 0x8, 0, 4⟩ : Fields).wellFormed = true := by decide
theorem test_wellformed_reserved_bits : (⟨1, 0x0, 0, 0⟩ : Fields).reservedZero = false := by decide
theorem test_wellformed_bit3 : (⟨0, 0x8, 1, 4⟩ : Fields).reservedZero = false := by decide
theorem test_wellformed_reserved_op : (⟨0, 0xC, 0, 0⟩ : Fields).opDefined = false := by decide
theorem test_wellformed_button_five : (⟨0, 0x8, 0, 5⟩ : Fields).buttonFits = false := by decide
theorem test_wellformed_button_where_none : (⟨0, 0xB, 0, 1⟩ : Fields).buttonFits = false := by decide

/-! ## Decoding: the word of every command, bit 31 first: RSV, OP, bit 3, BTN (R51, R52) -/

theorem test_decode_nop : decode 0b000000000000000000000000_0000_0_000 = .legal .nop := by decide
theorem test_decode_init : decode 0b000000000000000000000000_0001_0_000 = .legal .init := by decide
theorem test_decode_raw : decode 0b000000000000000000000000_0010_0_000 = .legal .raw := by decide
theorem test_decode_mapped : decode 0b000000000000000000000000_0011_0_000 = .legal .mapped := by decide
theorem test_decode_polar : decode 0b000000000000000000000000_0100_0_000 = .legal .polar := by decide
theorem test_decode_mag : decode 0b000000000000000000000000_0101_0_000 = .legal .mag := by decide
theorem test_decode_angle : decode 0b000000000000000000000000_0110_0_000 = .legal .angle := by decide
theorem test_decode_dir : decode 0b000000000000000000000000_0111_0_000 = .legal .dir := by decide
theorem test_decode_pressedA : decode 0b000000000000000000000000_1000_0_000 = .legal .pressedA := by decide
theorem test_decode_pressedB : decode 0b000000000000000000000000_1000_0_001 = .legal .pressedB := by decide
theorem test_decode_pressedX : decode 0b000000000000000000000000_1000_0_010 = .legal .pressedX := by decide
theorem test_decode_pressedY : decode 0b000000000000000000000000_1000_0_011 = .legal .pressedY := by decide
theorem test_decode_pressedStart : decode 0b000000000000000000000000_1000_0_100 = .legal .pressedStart := by decide
theorem test_decode_heldA : decode 0b000000000000000000000000_1001_0_000 = .legal .heldA := by decide
theorem test_decode_heldB : decode 0b000000000000000000000000_1001_0_001 = .legal .heldB := by decide
theorem test_decode_heldX : decode 0b000000000000000000000000_1001_0_010 = .legal .heldX := by decide
theorem test_decode_heldY : decode 0b000000000000000000000000_1001_0_011 = .legal .heldY := by decide
theorem test_decode_heldStart : decode 0b000000000000000000000000_1001_0_100 = .legal .heldStart := by decide
theorem test_decode_resetall : decode 0b000000000000000000000000_1010_0_000 = .legal .resetall := by decide
theorem test_decode_clrerr : decode 0b000000000000000000000000_1011_0_000 = .legal .clrerr := by decide

/-- V210, V215: BTN where OP takes none. -/
theorem test_decode_illegal_button_where_none :
    decode 0x00000001 = .illegal .buttonNotZero ∧ decode 0x000000A1 = .illegal .buttonNotZero := by decide

/-- V211, V214, V217 to V219: bit 3, bit 8, bit 31, and every bit. -/
theorem test_decode_illegal_reserved_bits :
    [0x00000008, 0x0000008C, 0x00000100, 0x80000080, 0xFFFFFFFF].map decode =
      List.replicate 5 (.illegal .reservedBits) := by decide

/-- V212, V213: no button 5 or 7. -/
theorem test_decode_illegal_no_such_button :
    decode 0x00000085 = .illegal .noSuchButton ∧ decode 0x00000087 = .illegal .noSuchButton := by decide

/-- V216: the four reserved OPs. -/
theorem test_decode_illegal_op :
    [0x000000C0, 0x000000D0, 0x000000E0, 0x000000F0].map decode = List.replicate 4 (.illegal .reservedOp) := by decide

/-- The host's question: a row's word, and a word that is no row's. -/
theorem test_decode_table_word :
    decodeTableWord 32 0x84 = some .pressedStart ∧ decodeTableWord 32 0x85 = none := by decide

/-! ## Small states -/

/-- A calibrated block with the given origin and ports. -/
def stick (x0 y0 h v : Nat) : State :=
  { State.reset with
    status := { State.reset.status with init := true }
    calX0 := BitVec.ofNat 17 x0, calY0 := BitVec.ofNat 17 y0, ainH := BitVec.ofNat 17 h, ainV := BitVec.ofNat 17 v }

/-- The state an outcome leads to; the reset state if it leads to none. -/
def after (o : Host.Outcome State Fault Refusal) : State :=
  match o with
  | .next t => t
  | _ => State.reset

/-- The state with one step to come. -/
def coming (e : Event) (s : State) : State := { s with pending := [e] }

/-- The state after a host program. -/
def runLines (lines : List HostLine) (s : State) : State :=
  after (Host.Core.run core lines.length (s.withLines lines))

/-! ## Geometry commands (95_test_vectors.md 2.1 and 2.2) -/

/-- V100: refused before INIT, and no sample taken. -/
theorem test_raw_before_init :
    (after (exec .raw { State.reset with ainH := 0x1FFFF })).status.word = 0x00000002 := by decide
/-- V2. -/
theorem test_raw_v2 :
    let t := after (exec .raw (stick 0x8000 0x8000 0x4000 0xC000))
    (t.resX, t.resY) = (0x00008000, 0x00008000) := by decide
/-- V15. -/
theorem test_mapped_v15 :
    let t := after (exec .mapped (stick 0x8000 0x8000 0x6000 0xF000))
    (t.resX, t.resY) = (0x00003247, 0x0000DC78) := by decide +kernel
/-- V106: the domain error. -/
theorem test_mapped_v106 :
    let t := after (exec .mapped (stick 0 0 0x10000 0x8000))
    (t.resX, t.resY, t.status.domerr) = (0xFFFE95F7, 0x00000000, true) := by decide +kernel
/-- V17. -/
theorem test_polar_v17 :
    let t := after (exec .polar (stick 0x8000 0x8000 0xE000 0x3000))
    (t.resMag, t.resAng) = (0x0000DB3B, 0x00E7C6E2) := by decide +kernel
/-- V107: the sentinel. -/
theorem test_polar_v107 :
    let t := after (exec .polar (stick 0x8000 0x8000 0x8000 0x8000))
    (t.resMag, t.resAng) = (0x00000000, 0xFFFF0000) := by decide +kernel
/-- V36: the largest magnitude. -/
theorem test_mag_v36 : (after (exec .mag (stick 0x8000 0 0x8000 0x10000))).resMag = 0x00020000 := by decide +kernel
/-- V102: RES_ANG is kept. -/
theorem test_mag_v102 :
    let t := after (exec .mag { stick 0x8000 0x8000 0xE000 0x3000 with resAng := 0x002D0000 })
    (t.resMag, t.resAng) = (0x0000DB3B, 0x002D0000) := by decide +kernel
/-- V20: just below 22.5 degrees. -/
theorem test_angle_v20 : (after (exec .angle (stick 0x8000 0x8000 0x7A8B 0x8D25))).resAng = 0x00167FFF := by
  decide +kernel
/-- V103: the sentinel, and RES_MAG is kept. -/
theorem test_angle_v103 :
    let t := after (exec .angle { stick 0x8000 0x8000 0x7334 0x8000 with resMag := 0x0000DB3B })
    (t.resAng, t.resMag) = (0xFFFF0000, 0x0000DB3B) := by decide +kernel
/-- V23: just past 337.5 degrees. -/
theorem test_dir_v23 : (after (exec .dir (stick 0x8000 0x8000 0x8575 0x8D25))).resDir = 1 := by decide +kernel
/-- V104: a saturated sample. -/
theorem test_dir_v104 :
    let t := after (exec .dir (stick 0x8000 0x8000 0x14000 0x8000))
    (t.resDir, t.status.word) = (7, 0x00000011) := by decide +kernel

/-- V40, V44, V45, V59 to V62: the discretizer at its ends. -/
theorem test_discretize :
    [(-65536 : Int), 0x00167FFF, 0x00168000, 0x01517FFF, 0x01518000, 0x015E0000, 0x0167FFFF].map
      (fun a => (discretize a).code.toNat) = [0, 1, 2, 8, 1, 1, 1] := by decide

/-! ## Control commands (95_test_vectors.md 2.3) -/

/-- V110. -/
theorem test_nop_v110 : after (exec .nop State.reset) = State.reset := by decide
/-- V112: re-initialisation. -/
theorem test_init_v112 :
    let t := after (exec .init { stick 0x8000 0x8000 0x7000 0x9000 with latch := 0b00001 })
    (t.calX0, t.calY0, t.latch, t.status.word) = (0x7000, 0x9000, 0, 0x00000001) := by decide
/-- V113: a saturated sample, and NOCAL kept. -/
theorem test_init_v113 :
    let s := { State.reset with ainH := 0x12000, ainV := 0x8000, status := { State.reset.status with nocal := true } }
    let t := after (exec .init s)
    (t.calX0, t.calY0, t.status.word) = (0x10000, 0x8000, 0x00000013) := by decide
/-- V114. -/
theorem test_clrerr_v114 :
    (after (exec .clrerr { State.reset with status := ⟨true, true, true, true, true⟩ })).status.word = 0x00000001 := by
  decide
/-- V117: the latches are kept. -/
theorem test_clrerr_v117 :
    (after (exec .clrerr { stick 0 0 0 0 with latch := 0b00010 })).latch = 0b00010 := by decide

/-! ## Button commands (95_test_vectors.md 2.5) -/

/-- All latches set, and the levels of A and X low. -/
def buttons : State := { stick 0x8000 0x8000 0x8000 0x8000 with latch := 0b11111, level := 0b11010 }

theorem test_pressedA :
    let t := after (exec .pressedA buttons); (t.resBit, t.latch, t.level) = (1, 0b11110, 0b11010) := by decide
theorem test_pressedB : let t := after (exec .pressedB buttons); (t.resBit, t.latch) = (1, 0b11101) := by decide
theorem test_pressedX : let t := after (exec .pressedX buttons); (t.resBit, t.latch) = (1, 0b11011) := by decide
theorem test_pressedY : let t := after (exec .pressedY buttons); (t.resBit, t.latch) = (1, 0b10111) := by decide
theorem test_pressedStart : let t := after (exec .pressedStart buttons); (t.resBit, t.latch) = (1, 0b01111) := by decide
/-- V71: no latch, no press. -/
theorem test_pressedA_v71 :
    let t := after (exec .pressedA { buttons with latch := 0b11110 }); (t.resBit, t.latch) = (0, 0b11110) := by decide
theorem test_heldA :
    let t := after (exec .heldA buttons); (t.resBit, t.latch, t.level) = (1, 0b11111, 0b11010) := by decide
theorem test_heldB : (after (exec .heldB buttons)).resBit = 0 := by decide
theorem test_heldX : (after (exec .heldX buttons)).resBit = 1 := by decide
theorem test_heldY : (after (exec .heldY buttons)).resBit = 0 := by decide
theorem test_heldStart : (after (exec .heldStart buttons)).resBit = 0 := by decide
theorem test_resetall :
    let t := after (exec .resetall buttons); (t.latch, t.level, t.status.init) = (0, 0b11010, true) := by decide

/-! ## The bus and the environment (95_test_vectors.md 2.5, 2.7 and 2.8) -/

/-- V70: an armed falling edge sets the latch; V72: an unarmed one does not. -/
theorem test_pin_edge :
    (after (step (coming (.pin .btnA false) (stick 0 0 0 0)))).latch = 0b00001 ∧
      (after (step (coming (.pin .btnA false) State.reset))).latch = 0 ∧
      (after (step (coming (.pin .btnA false) State.reset))).level = 0b11110 := by decide
/-- V76: a rising edge changes the level only. -/
theorem test_pin_rising :
    let t := after (step (coming (.pin .btnY true) { stick 0 0 0 0 with level := 0b10111 }))
    (t.level, t.latch) = (0b11111, 0) := by decide
/-- V241: RESET with A held. -/
theorem test_reset_v241 :
    let t := after (step (coming (.reset 0b11110) buttons))
    (t.level, t.latch, t.status.word, t.calX0) = (0b11110, 0, 0, 0) := by decide
/-- V230. -/
theorem test_read_v230 :
    (after (step (coming (.host (.read 4 0x20)) { State.reset with calX0 := 0x10000 }))).response =
      .readData 0x00010000 := by decide
/-- V221 to V227: bus errors. -/
theorem test_bus_errors :
    ([HostAccess.read 4 0x00, .write 4 0x08 0x12345678, .write 4 0x04 0, .read 4 0x28, .read 4 0x3C, .write 1 0x00 0x10,
        .read 2 0x08, .read 4 0x06].map fun a => step (coming (.host a) buttons)) =
      [0x00, 0x08, 0x04, 0x28, 0x3C, 0x00, 0x08, 0x06].map fun addr =>
        .next { buttons with response := .busError addr } := by rfl
/-- V228: OKAY, and the flag. -/
theorem test_write_v228 :
    let t := after (step (coming (.host (.write 4 0 0x000000C0)) State.reset))
    (t.response, t.status.word) = (.okay, 0x00000008) := by decide
/-- `withFetchWord` on the reset state: the next step runs INIT (V111). -/
theorem test_withFetchWord_init :
    let t := after (step ({ State.reset with ainH := 0x8000, ainV := 0x8000 }.withFetchWord 32 0x10))
    (t.calX0, t.calY0, t.status.word, t.pending) = (0x8000, 0x8000, 0x00000001, []) := by decide
/-- S3 and V80: edge first, then PRESSED X twice. -/
theorem test_race_edge_first :
    let t := runLines [.pin .btnX false, .cmd .pressedX] (stick 0 0 0 0)
    (t.resBit, (runLines [.cmd .pressedX] t).resBit) = (1, 0) := by decide +kernel

/-! ## Witnesses: for each statement with hypotheses, values that meet all of them together -/

theorem test_witness_DecodeInvertsEncode : decode 0x00000084 = .legal .pressedStart := by decide

/-- The host writes `w` to CMD. -/
abbrev writeCmd (w : Word) (s : State) : State := coming (.host (.write 4 s.base w)) s

theorem test_witness_StepRunsDecodedCommand :
    decode 0x00000020 = .legal .raw ∧
      (writeCmd 0x20 buttons).pending = .host (.write 4 (writeCmd 0x20 buttons).base 0x20) :: [] ∧
      exec .raw { writeCmd 0x20 buttons with pending := [] } = .next (after (exec .raw buttons)) :=
  ⟨by decide, rfl, rfl⟩

theorem test_witness_IllegalWordSetsFlagOnly :
    (writeCmd 0xC0 buttons).pending = .host (.write 4 (writeCmd 0xC0 buttons).base 0xC0) :: [] ∧
      decode 0xC0 = .illegal .reservedOp := ⟨rfl, by decide⟩

/-- The first and the last readable offset. -/
theorem test_witness_ReadsAnswerRegisters :
    ∀ p ∈ [(0x04, 1), (0x24, 0x8000)],
      p ∈ [(0x04, buttons.status.init.toNat + 2 * buttons.status.nocal.toNat + 4 * buttons.status.domerr.toNat +
            8 * buttons.status.illegal.toNat + 16 * buttons.status.sat.toNat),
          (0x08, buttons.resX.toNat), (0x0C, buttons.resY.toNat), (0x10, buttons.resMag.toNat),
          (0x14, buttons.resAng.toNat), (0x18, buttons.resDir.toNat), (0x1C, buttons.resBit.toNat),
          (0x20, buttons.calX0.toNat), (0x24, buttons.calY0.toNat)] ∧
        (coming (.host (.read 4 (buttons.base + p.1))) buttons).pending =
          .host (.read 4 ((coming (.host (.read 4 (buttons.base + p.1))) buttons).base + p.1)) :: [] := by decide

/-- A block whose window is 0x40 to 0x7F. -/
def placed : State := { buttons with basePage := 1 }

/-- Reads: a narrow one of the last byte, a misaligned one, one of CMD, and the first and last reserved offsets. -/
theorem test_witness_BusErrorsChangeNothing_read :
    ∀ p ∈ [(1, 0x7F), (8, 0x44), (4, 0x41), (4, 0x40), (4, 0x68), (4, 0x7C)],
      placed.base ≤ p.2 ∧ p.2 < placed.base + 64 ∧
        (p.1 ≠ 4 ∨ p.2 % 4 ≠ 0 ∨ p.2 = placed.base ∨ placed.base + 0x28 ≤ p.2) := by decide

/-- Writes: narrow and wide ones of CMD, a misaligned one, and the first and last words that are not CMD. -/
theorem test_witness_BusErrorsChangeNothing_write :
    ∀ p ∈ [(1, 0x40), (8, 0x40), (4, 0x43), (4, 0x44), (4, 0x7C)],
      placed.base ≤ p.2 ∧ p.2 < placed.base + 64 ∧ (p.1 ≠ 4 ∨ p.2 % 4 ≠ 0 ∨ p.2 ≠ placed.base) := by decide

/-- The addresses next to the window. -/
theorem test_witness_OutsideWindowUnanswered :
    0x3F < placed.base ∧ placed.base + 64 ≤ 0x80 ∧
      (coming (.host (.read 4 0x3F)) placed).pending = .host (.read 4 0x3F) :: [] ∧
      (coming (.host (.write 4 0x80 0)) placed).pending = .host (.write 4 0x80 0) :: [] := by decide

theorem test_witness_ByteLanesLittleEndian :
    buttons.readReg .calX0 = some 0x8000 ∧ buttons.laneByte .calX0 1 = some 0x80 := by decide

theorem test_witness_PressedConsumesLatch :
    (Instr.pressedStart, 4) ∈
      [(Instr.pressedA, 0), (.pressedB, 1), (.pressedX, 2), (.pressedY, 3), (.pressedStart, 4)] := by decide

theorem test_witness_HeldAnswersInvertedLevel :
    (Instr.heldStart, 4) ∈ [(Instr.heldA, 0), (.heldB, 1), (.heldX, 2), (.heldY, 3), (.heldStart, 4)] := by decide

theorem test_witness_GeometryRefusedBeforeInit :
    Instr.dir ∈ [Instr.raw, .mapped, .polar, .mag, .angle, .dir] ∧ State.reset.status.init = false := by decide

/-- For RAW, MAPPED, POLAR, MAG, ANGLE and DIR: a calibrated state. -/
theorem test_witness_calibrated : (stick 0x8000 0x8000 0x4000 0xC000).status.init = true := by decide

/-- For AngleUnitsIsExactFloor and DiscretizerAgreesWithSector. -/
theorem test_witness_vector : (⟨1, -1⟩ : Point) ≠ ⟨0, 0⟩ := by decide

/-- The corner of the unit square. -/
theorem test_witness_MapperProperties :
    (⟨65536, -65536⟩ : Point).x.natAbs ≤ 65536 ∧ (⟨65536, -65536⟩ : Point).y.natAbs ≤ 65536 := by decide

/-- The clamped radicand nearest to 0, and the open one nearest to 0. -/
theorem test_witness_MappedAxisZeroCases : radicand 92682 ≤ 0 ∧ ¬radicand 92681 ≤ 0 := by decide

/-- The two magnitudes at the noise floor. -/
theorem test_witness_NoiseFloorSplitsReadings : magnitude ⟨6553, 0⟩ ≤ 6553 ∧ 6554 ≤ magnitude ⟨6554, 0⟩ := by
  decide +kernel

theorem test_witness_DomainErrorAnglesAreAxes :
    domainError ⟨92682, 0⟩ = true ∧ domainError ⟨92681, 92681⟩ = false := by decide

theorem test_witness_PinSetsLevelAndArmedEdge :
    (coming (.pin .btnStart false) buttons).pending = .pin .btnStart false :: [] := rfl

theorem test_witness_ResetClearsEverything :
    (coming (.reset 0b01111) buttons).pending = .reset 0b01111 :: [] := rfl

theorem test_witness_AnalogSetsPorts :
    (coming (.analog 0x1FFFF 0) buttons).pending = .analog 0x1FFFF 0 :: [] := rfl

/-- A cycle with the command `i`, an edge of B and possibly RESET. -/
def busyCycle (i : Instr) (reset : Option Lines) : Cycle :=
  ⟨some (.write 4 0 (encode i)), [(.btnB, false)], reset⟩

/-- PRESSED B, RESETALL and INIT armed before, and INIT not armed before. -/
theorem test_witness_EdgeWinsOverClear :
    (∀ i ∈ [Instr.pressed .btnB, .resetall, .init],
      buttons.status.init = true ∧ lineBit buttons.level .btnB = true ∧
        { buttons with pending := (busyCycle i none).steps }.pending =
          Cycle.steps ⟨some (.write 4 buttons.base (encode i)), [(.btnB, false)], none⟩ ++ []) ∧
      State.reset.status.init = false ∧ lineBit State.reset.level .btnB = true ∧ State.reset.base = 0 := by decide

theorem test_witness_ResetWinsItsCycle :
    (busyCycle .pressedB (some 0b11110)).reset = some 0b11110 ∧
      { buttons with pending := (busyCycle .pressedB (some 0b11110)).steps }.pending =
        (busyCycle .pressedB (some 0b11110)).steps ++ [] := by decide

/-- The last plain mnemonic; and a button's name in mixed case, and its number. -/
theorem test_witness_MnemonicsAssembleToTheirWords :
    ("CLRERR", 0xB0) ∈ ([("RESETALL", 0xA0), ("CLRERR", 0xB0)] : List (String × Word)) ∧
      "sTart".toUpper = "START" ∧ (assemble "PRESSED" (some "sTart")).map encode = some 0x84 ∧
      (assemble "HELD" (some "4")).map encode = some 0x94 := by decide +kernel

/-- A calibrated state with every flag set. -/
def flagged : State := { stick 0 0 0x10000 0x8000 with status := ⟨true, true, true, true, true⟩ }

theorem test_witness_StickyFlagsStay :
    step (writeCmd 0x20 flagged) = .next (after (step (writeCmd 0x20 flagged))) ∧
      (writeCmd 0x20 flagged).status.flag .domerr = true ∧
      ¬Next (writeCmd 0x20 flagged) (command (writeCmd 0x20 flagged).base .clrerr) ∧
      ¬NextIsReset (writeCmd 0x20 flagged) :=
  ⟨rfl, by decide, by decide, by rintro ⟨_, h⟩; cases h⟩

/-- One step that sets each flag. -/
theorem test_witness_FlagsSetOnlyByTheirConditions :
    (State.reset.status.nocal = false ∧ (after (step (writeCmd 0x20 State.reset))).status.nocal = true) ∧
      ((stick 0 0 0x10000 0x8000).status.domerr = false ∧
        (after (step (writeCmd 0x30 (stick 0 0 0x10000 0x8000)))).status.domerr = true) ∧
      (buttons.status.illegal = false ∧ (after (step (writeCmd 0xC0 buttons))).status.illegal = true) ∧
      (State.reset.status.sat = false ∧
        (after (step (writeCmd 0x10 { State.reset with ainH := 0x10001 }))).status.sat = true) := by decide +kernel

theorem test_witness_InitBitSetAndClearedOnlySo :
    (State.reset.status.init = false ∧ (after (step (writeCmd 0x10 State.reset))).status.init = true) ∧
      (buttons.status.init = true ∧ (after (step (coming (.reset 0) buttons))).status.init = false) := by decide

theorem test_witness_OriginChangesOnlyAtInitOrReset :
    (after (step (writeCmd 0x10 (stick 0 0 1 0)))).calX0 ≠ (stick 0 0 1 0).calX0 ∧
      (after (step (writeCmd 0x10 (stick 0 0 0 1)))).calY0 ≠ (stick 0 0 0 1).calY0 := by decide

theorem test_witness_LevelChangesOnlyAtPinOrReset :
    lineBit (after (step (coming (.pin .btnB false) buttons))).level .btnB ≠ lineBit buttons.level .btnB := by decide

theorem test_witness_LatchSetOnlyByArmedEdge :
    lineBit (stick 0 0 0 0).latch .btnY = false ∧
      lineBit (after (step (coming (.pin .btnY false) (stick 0 0 0 0)))).latch .btnY = true := by decide

theorem test_witness_LatchClearedOnlySo :
    lineBit buttons.latch .btnY = true ∧
      ∀ e ∈ [command 0 .pressedY, command 0 .resetall, command 0 .init, .reset 0],
        lineBit (after (step (coming e buttons))).latch .btnY = false := by decide

/-- A command that writes each result register. -/
theorem test_witness_ResultsWrittenOnlyByTheirCommands :
    (after (step (writeCmd 0x20 flagged))).resX ≠ flagged.resX ∧
      (after (step (writeCmd 0x30 flagged))).resX ≠ flagged.resX ∧
      (after (step (writeCmd 0x20 flagged))).resY ≠ flagged.resY ∧
      (after (step (writeCmd 0x50 flagged))).resMag ≠ flagged.resMag ∧
      (after (step (writeCmd 0x60 flagged))).resAng ≠ flagged.resAng ∧
      (after (step (writeCmd 0x70 flagged))).resDir ≠ flagged.resDir ∧
      (after (step (writeCmd 0x90 buttons))).resBit ≠ buttons.resBit := by decide +kernel

theorem test_witness_no_reset_next : ¬NextIsReset (writeCmd 0x20 flagged) := by rintro ⟨_, h⟩; cases h

theorem test_witness_FlagsAreReportsOnly :
    withoutFlags flagged = withoutFlags (stick 0 0 0x10000 0x8000) ∧ exec .raw flagged = .next (after (exec .raw flagged)) ∧
      exec .raw (stick 0 0 0x10000 0x8000) = .next (after (exec .raw (stick 0 0 0x10000 0x8000))) := ⟨by decide, rfl, rfl⟩

/-- Two states that differ in a result register and in LATCH. -/
theorem test_witness_GeometryDependsOnSampleAndOrigin :
    let s := stick 0x8000 0x8000 0x4000 0xC000
    let s' := { s with resX := 5, latch := 0b11111 }
    s.status = s'.status ∧ s.ainH = s'.ainH ∧ s.ainV = s'.ainV ∧ s.calX0 = s'.calX0 ∧ s.calY0 = s'.calY0 ∧
      s.status.init = true ∧ exec .raw s = .next (after (exec .raw s)) ∧ exec .raw s' = .next (after (exec .raw s')) :=
  ⟨rfl, rfl, rfl, rfl, rfl, rfl, rfl, rfl⟩

theorem test_witness_StepKeepsRanges :
    InRange buttons ∧ step (writeCmd 0x20 buttons) = .next (after (step (writeCmd 0x20 buttons))) := ⟨by decide, rfl⟩

/-- A state before INIT that NOCAL, RES_BIT and LEVEL have left. -/
theorem test_witness_StepKeepsUntouchedBeforeInit :
    let s := { State.reset with status := { State.reset.status with nocal := true }, resBit := 1, level := 0 }
    s.status.init = false ∧ UntouchedBeforeInit s ∧ step (writeCmd 0x20 s) = .next (after (step (writeCmd 0x20 s))) :=
  ⟨rfl, by decide, rfl⟩

/-- Two steps to come: a PIN(A, 0) with A low already, and an armed falling edge of B. -/
def quietA : State :=
  { stick 0 0 0 0 with level := 0b11110, pending := [.pin .btnA false, .pin .btnB false] }

theorem test_witness_NoReportWithoutEdge :
    lineBit quietA.latch .btnA = false ∧
      (∀ (j : Nat) (u : State), j < 2 → Host.Core.run core j quietA = .next u → Next u (.pin .btnA false) →
        lineBit u.level .btnA = false ∨ u.status.init = false) ∧
      Host.Core.run core 2 quietA = .next (after (Host.Core.run core 2 quietA)) := by
  refine ⟨by decide, ?_, rfl⟩
  intro j u hj hr hn
  match j, hj with
  | 0, _ => cases hr; decide
  | 1, _ => cases hr; exact absurd hn (by decide)

/-- The same with both edges of A unarmed: before INIT. -/
theorem test_witness_NoReportWithoutEdge_unarmed :
    let s := { State.reset with pending := [.pin .btnA false] }
    lineBit s.latch .btnA = false ∧ Next s (.pin .btnA false) ∧ s.status.init = false := by decide

/-- An armed falling edge of A, then PRESSED B. -/
def edgeOfA : State := { stick 0 0 0 0 with pending := [.pin .btnA false, command 0 .pressedB] }

theorem test_witness_NoEdgeLost :
    edgeOfA.pending = .pin .btnA false :: [command 0 .pressedB] ∧ lineBit edgeOfA.level .btnA = true ∧
      edgeOfA.status.init = true ∧
      (∀ e ∈ [command 0 .pressedB].take 1,
        e ≠ command edgeOfA.base (.pressed .btnA) ∧ e ≠ command edgeOfA.base .resetall ∧
          e ≠ command edgeOfA.base .init ∧ ∀ btnIn, e ≠ .reset btnIn) ∧
      Host.Core.run core (1 + 1) edgeOfA = .next (after (Host.Core.run core (1 + 1) edgeOfA)) := by
  refine ⟨rfl, by decide, rfl, ?_, rfl⟩
  intro e he
  rw [show e = command 0 .pressedB from List.mem_singleton.mp he]
  exact ⟨by decide, by decide, by decide, fun _ h => by cases h⟩

end Sys2Proof.Tests
end

section
/-! The completion of every step (00_scope.md R14, R109), and the integer angle method against the real compass angle
(00_scope.md R11; 40_geometry.md R71). -/

namespace Sys2Proof.Proofs

open Sys2Proof.Machine Sys2Proof.Safety Sys2Proof.Laws Real

/-! Completion. -/

theorem hostStep_completes (a : HostAccess) (s : State) : ∃ t, hostStep a s = .next t := by
  cases a with
  | read bytes addr =>
    obtain ⟨r, hr⟩ := hostRead_spec bytes addr s
    exact ⟨s.respond r, hr⟩
  | write bytes addr data => exact hostWrite_completes bytes addr data s

theorem perform_completes (e : Event) (s : State) : ∃ t, perform e s = .next t := by
  cases e with
  | host a => exact hostStep_completes a s
  | pin b l => exact ⟨pinStep b l s, rfl⟩
  | analog h v => exact ⟨analogStep h v s, rfl⟩
  | reset btnIn => exact ⟨resetStep btnIn s, rfl⟩

theorem step_of_pending_nil {s : State} (h : s.pending = []) : step s = .next s := by
  simp [step, performNext, h]

theorem step_of_pending_cons {s : State} {e : Event} {rest : List Event} (h : s.pending = e :: rest) :
    step s = perform e { s with pending := rest } := by
  simp [step, performNext, h]

/-- Settles O7: with no step to come nothing happens, and each agent's step answers a next state. -/
theorem everyStepCompletes : Obligations.EveryStepCompletes := by
  intro s
  cases h : s.pending with
  | nil => exact ⟨s, step_of_pending_nil h⟩
  | cons e rest => rw [step_of_pending_cons h]; exact perform_completes e _

/-! The compass angle of R11. -/

theorem compassDegrees_nonneg (px py : ℤ) : 0 ≤ compassDegrees px py := by
  have harg : -180 < Complex.arg ⟨px, py⟩ * 180 / π := by
    rw [lt_div_iff₀ pi_pos]; linarith [Complex.neg_pi_lt_arg ⟨px, py⟩]
  simp only [compassDegrees]
  split_ifs <;> linarith

theorem compassDegrees_lt (px py : ℤ) : compassDegrees px py < 360 := by
  have harg : Complex.arg ⟨px, py⟩ * 180 / π ≤ 180 := by
    rw [div_le_iff₀ pi_pos]; linarith [Complex.arg_le_pi ⟨px, py⟩]
  simp only [compassDegrees]
  split_ifs <;> linarith

/-- The shift into [0, 360) is by no turn or by one. -/
theorem compassDegrees_div (px py : ℤ) :
    ∃ m : ℤ, compassDegrees px py / 360 = Complex.arg ⟨px, py⟩ / (2 * π) + m := by
  simp only [compassDegrees]
  split_ifs
  · exact ⟨0, by push_cast; field_simp; ring⟩
  · exact ⟨1, by push_cast; field_simp; ring⟩

/-- Every vector but zero stands at its argument, in turns. -/
theorem atTurn_arg {v : Point} (h : v ≠ ⟨0, 0⟩) : AtTurn v (Complex.arg ⟨v.x, v.y⟩ / (2 * π)) := by
  have hz : (⟨v.x, v.y⟩ : ℂ) ≠ 0 := fun h0 => h <| by
    obtain ⟨hx, hy⟩ := Complex.ext_iff.1 h0
    cases v
    simpa using And.intro hx hy
  refine ⟨‖(⟨v.x, v.y⟩ : ℂ)‖, norm_pos_iff.2 hz, ?_, ?_⟩ <;> rw [mul_div_cancel₀ _ two_pi_pos.ne']
  · exact (Complex.norm_mul_cos_arg ⟨v.x, v.y⟩).symm
  · exact (Complex.norm_mul_sin_arg ⟨v.x, v.y⟩).symm

/-- Every vector but zero stands at its compass angle. -/
theorem atTurn_compassDegrees {v : Point} (h : v ≠ ⟨0, 0⟩) : AtTurn v (compassDegrees v.x v.y / 360) := by
  obtain ⟨m, hm⟩ := compassDegrees_div v.x v.y
  rw [hm, atTurn_add_int]
  exact atTurn_arg h

/-- Settles O26: the vector stands at `compass / 360` turns, in [0, 1), where the integer method is exact. -/
theorem angleUnitsIsExactFloor : Obligations.AngleUnitsIsExactFloor := by
  intro v hv
  have hnonneg := compassDegrees_nonneg v.x v.y
  have hlt := compassDegrees_lt v.x v.y
  calc (angleUnits v : ℤ) = ⌊(23592960 : ℝ) * (compassDegrees v.x v.y / 360)⌋ :=
        angleUnits_spec (atTurn_compassDegrees hv) (by linarith) (by linarith)
    _ = ⌊compassDegrees v.x v.y * 65536⌋ := by congr 1; ring

end Sys2Proof.Proofs
end

section
/-! The word of a command, the inversion of `exec` and of `step` in the terms of the claims, one named rule for each
thing that a command and a step can do. -/

namespace Sys2Proof.Proofs

open Sys2Proof.Machine Sys2Proof.Safety Sys2Proof.Laws

/-! A legal word is the word of its command (30_encoding.md R57). -/

theorem decodeOp_eq_legal {op : BitVec 4} {btn : BitVec 3} {i : Instr} (h : decodeOp op btn = .legal i) :
    op = i.op ∧ btn = (i.button.map Button.code).getD 0 := by
  revert op btn
  cases i <;> decide

theorem eq_encode_of_decode {w : Word} {i : Instr} (h : decode w = .legal i) : w = encode i := by
  simp only [decode] at h
  split at h
  · cases h
  · rename_i hzero
    obtain ⟨hrsv, hr3⟩ := not_or.1 hzero
    obtain ⟨hop, hbtn⟩ := decodeOp_eq_legal h
    have hfields : Fields.ofWord w = i.fields := by
      rw [Instr.fields, ← not_ne_iff.1 hrsv, ← not_ne_iff.1 hr3, ← hop, ← hbtn]
    rw [encode, ← hfields, toWord_ofWord]

/-! What a command samples, in the terms of Safety.lean (40_geometry.md R63, R65, R66). -/

theorem rawPoint_x (s : State) : (rawPoint s).x = rawX s := by
  simp [rawPoint, center, rawX, sampled, saturate_toNat]

theorem rawPoint_y (s : State) : (rawPoint s).y = rawY s := by
  simp [rawPoint, center, rawY, sampled, saturate_toNat]

theorem radicand_neg_iff (c : Int) : radicand c < 0 ↔ 2 * 65536 ^ 2 < c ^ 2 := by
  rw [radicand, radicandUnit_eq, pow_two c]
  omega

theorem domainError_rawPoint (s : State) : domainError (rawPoint s) = outsideDomain s := by
  simp only [domainError, outsideDomain, rawPoint_x, rawPoint_y, radicand_neg_iff, Bool.or_comm]

theorem sampledState_eq_afterSample (s : State) : sampledState s = afterSample s := by
  have hsat : (overRange s.ainH || overRange s.ainV) = saturates s := rfl
  rw [sampledState, hsat, afterSample]
  cases saturates s <;> simp [State.setFlagIf, State.setFlag, Status.set]

theorem mappedState_eq_afterMapping (s : State) : mappedState s = afterMapping s := by
  rw [mappedState, sampledState_eq_afterSample, domainError_rawPoint, afterMapping]
  cases outsideDomain s <;> simp [afterSample, State.setFlagIf, State.setFlag, Status.set]

/-! What one command does (42_control.md R108). -/

/-- The commands that draw a sample against the origin (R78). -/
abbrev geometryCommands : List Instr := [.raw, .mapped, .polar, .mag, .angle, .dir]

/-- The commands that run the mapper, and so can set DOMERR (R86). -/
abbrev mappingCommands : List Instr := [.mapped, .polar, .mag, .angle, .dir]

theorem exec_eq_calibrated {i : Instr} (hi : i ∈ geometryCommands) (s : State) :
    ∃ run, exec i s = calibrated run s := by
  simp only [List.mem_cons, List.not_mem_nil, or_false] at hi
  rcases hi with rfl | rfl | rfl | rfl | rfl | rfl
  · exact ⟨_, exec_raw s⟩
  · exact ⟨_, exec_mapped s⟩
  · exact ⟨_, exec_polar s⟩
  · exact ⟨_, exec_mag s⟩
  · exact ⟨_, exec_angle s⟩
  · exact ⟨_, exec_dir s⟩

/-- The polar reading of the ports and origin of a state (R77). -/
def reading (s : State) : Polar := polarOf (polarFrame (squareToCircle (rawPoint s)))

/-- What command `i` makes of state `s`, one rule for each way a command can go. `exec_iff` ties it to `exec`. -/
inductive ExecRule (s : State) : Instr → State → Prop where
  | refused {i : Instr} (hi : i ∈ geometryCommands) (hinit : s.status.init = false) :
      ExecRule s i (s.setFlag .nocal)
  | raw (hinit : s.status.init = true) :
      ExecRule s .raw ((afterSample s).writeXY (rawPoint s).x (rawPoint s).y)
  | mapped (hinit : s.status.init = true) :
      ExecRule s .mapped
        ((afterMapping s).writeXY (squareToCircle (rawPoint s)).x (squareToCircle (rawPoint s)).y)
  | polar (hinit : s.status.init = true) :
      ExecRule s .polar (((afterMapping s).writeMag (reading s).mag).writeAng (reading s).ang)
  | mag (hinit : s.status.init = true) : ExecRule s .mag ((afterMapping s).writeMag (reading s).mag)
  | angle (hinit : s.status.init = true) : ExecRule s .angle ((afterMapping s).writeAng (reading s).ang)
  | dir (hinit : s.status.init = true) :
      ExecRule s .dir ((afterMapping s).writeDir (discretize (reading s).ang).code)
  | nop : ExecRule s .nop s
  | init :
      ExecRule s .init (((afterSample s).writeCal (saturate s.ainH) (saturate s.ainV)).clearLatches).setInit
  | clrerr : ExecRule s .clrerr s.clearFlags
  | resetall : ExecRule s .resetall s.clearLatches
  | pressed (b : Button) : ExecRule s (.pressed b) (pressed b s)
  | held (b : Button) : ExecRule s (.held b) (held b s)

theorem execRule_of_exec {i : Instr} {s t : State} (h : exec i s = .next t) : ExecRule s i t := by
  have hcases := exec_cases h
  simp only [sampledState_eq_afterSample, mappedState_eq_afterMapping] at hcases
  rcases hcases with ⟨hi, hinit, rfl⟩ | ⟨rfl, hinit, rfl⟩ |
    ⟨hinit, p, r, rfl, rfl, ⟨rfl, rfl⟩ | ⟨rfl, rfl⟩ | ⟨rfl, rfl⟩ | ⟨rfl, rfl⟩ | ⟨rfl, rfl⟩⟩ |
    ⟨rfl, rfl⟩ | ⟨rfl, rfl⟩ | ⟨rfl, rfl⟩ | ⟨rfl, rfl⟩ | ⟨b, rfl, rfl⟩ | ⟨b, rfl, rfl⟩
  · exact .refused hi hinit
  · exact .raw hinit
  · exact .mapped hinit
  · exact .polar hinit
  · exact .mag hinit
  · exact .angle hinit
  · exact .dir hinit
  · exact .nop
  · exact .init
  · exact .clrerr
  · exact .resetall
  · exact .pressed b
  · exact .held b

theorem exec_of_execRule {i : Instr} {s t : State} (h : ExecRule s i t) : exec i s = .next t := by
  have hsampled : (geomRaw s).2 = afterSample s := by
    rw [geomRaw_spec, ← sampledState_eq_afterSample]; rfl
  have hmapped : (geomMapped s).2 = afterMapping s := by
    rw [geomMapped_spec, ← mappedState_eq_afterMapping]; rfl
  have hpolar : geomPolar s = (reading s, afterMapping s) := by
    rw [geomPolar_spec, ← mappedState_eq_afterMapping]; rfl
  cases h with
  | refused hi hinit =>
    obtain ⟨run, hrun⟩ := exec_eq_calibrated hi s
    rw [hrun, calibrated_of_not_init hinit]
  | raw hinit => rw [exec_raw, calibrated_of_init hinit, hsampled, geomRaw_spec]
  | mapped hinit => rw [exec_mapped, calibrated_of_init hinit, hmapped, geomMapped_spec]
  | polar hinit => rw [exec_polar, calibrated_of_init hinit, hpolar]
  | mag hinit => rw [exec_mag, calibrated_of_init hinit, hpolar]
  | angle hinit => rw [exec_angle, calibrated_of_init hinit, hpolar]
  | dir hinit => rw [exec_dir, calibrated_of_init hinit, hpolar]
  | init => rw [← sampledState_eq_afterSample]; rfl
  | pressed b => cases b <;> rfl
  | held b => cases b <;> rfl
  | nop | clrerr | resetall => rfl

theorem exec_iff {i : Instr} {s t : State} : exec i s = .next t ↔ ExecRule s i t :=
  ⟨execRule_of_exec, exec_of_execRule⟩

/-! What one step does (00_scope.md R13). -/

/-- PIN(b, l) as one record update: the level, and the latch on an armed falling edge (41_buttons.md R91, R92). -/
theorem pinStep_eq (b : Button) (l : Bool) (s : State) :
    pinStep b l s =
      { s with
        level := setLine s.level b l
        latch := if lineBit s.level b && !l && s.status.init then setLine s.latch b true else s.latch } := by
  simp only [pinStep]
  split <;> rfl

/-- What the next step of `s` can make of it, one rule for each way a step can go: an access that changes nothing but
the answer (or no step at all), a command, an illegal word, and the steps of the environment. -/
inductive StepRule (s : State) : State → Prop where
  | answer (rest : List Event) (r : Response) : StepRule s (State.respond r { s with pending := rest })
  | command {rest : List Event} {i : Instr} {v : State} (hnext : Next s (command s.base i))
      (hrun : ExecRule { s with pending := rest } i v) : StepRule s (v.respond .okay)
  | illegal {rest : List Event} {w : Word} {why : Illegal} (hnext : Next s (.host (.write 4 s.base w)))
      (hw : decode w = .illegal why) :
      StepRule s ((State.setFlag .illegal { s with pending := rest }).respond .okay)
  | pin {rest : List Event} {b : Button} {l : Bool} (hnext : Next s (.pin b l)) :
      StepRule s (pinStep b l { s with pending := rest })
  | analog (rest : List Event) (h v : Sample) : StepRule s (analogStep h v { s with pending := rest })
  | reset {rest : List Event} {btnIn : Lines} (hnext : Next s (.reset btnIn)) :
      StepRule s (resetStep btnIn { s with pending := rest })

theorem stepRule_of_step {s t : State} (h : step s = .next t) : StepRule s t := by
  rcases step_cases h with ⟨-, rfl⟩ | ⟨e, rest, hp, u, rfl, hcases⟩
  · exact .answer t.pending t.response
  · have hnext : Next s e := by rw [Next, hp, List.head?_cons]
    rcases hcases with ⟨a, r, rfl, rfl⟩ | ⟨i, w, v, rfl, hw, hx, rfl⟩ | ⟨why, w, rfl, hw, rfl⟩ |
      ⟨b, l, rfl, rfl⟩ | ⟨p, q, rfl, rfl⟩ | ⟨btnIn, rfl, rfl⟩
    · exact .answer rest r
    · rw [eq_encode_of_decode hw] at hnext
      exact .command hnext (exec_iff.1 hx)
    · exact .illegal hnext hw
    · exact .pin hnext
    · exact .analog rest p q
    · exact .reset hnext

end Sys2Proof.Proofs
end

section
/-! Every step keeps every register in its range (10_state.md R23; 40_geometry.md R72, R73). -/

namespace Sys2Proof.Proofs

open Sys2Proof.Machine Sys2Proof.Safety Sys2Proof.Laws

theorem rawPoint_natAbs_le {s : State} (h : CalInRange s) :
    (rawPoint s).x.natAbs ≤ 131072 ∧ (rawPoint s).y.natAbs ≤ 131072 :=
  center_range (saturate_le _) (saturate_le _) h.1 h.2

theorem coordsInRange_writeXY {s : State} {p : Point} (hx : p.x.natAbs ≤ 131072) (hy : p.y.natAbs ≤ 131072) :
    CoordsInRange (s.writeXY p.x p.y) := by
  rw [CoordsInRange, writeXY_resX, writeXY_resY, sext32_toInt (by omega) (by omega),
    sext32_toInt (by omega) (by omega)]
  omega

theorem reading_mag {s : State} (h : CalInRange s) :
    (reading s).mag = 0 ∨ (6554 ≤ (reading s).mag ∧ (reading s).mag ≤ 131072) := by
  obtain ⟨hx, hy⟩ := rawPoint_natAbs_le h
  refine (polarOf_mag _).imp_right fun ⟨hlow, heq⟩ => ⟨hlow, ?_⟩
  rw [reading, heq]
  exact_mod_cast magnitude_le hx hy

theorem magInRange_writeMag {s : State} {m : Int} (h : m = 0 ∨ (6554 ≤ m ∧ m ≤ 131072)) :
    MagInRange (s.writeMag m) := by
  rw [MagInRange, writeMag_resMag, sext32_toInt (by omega) (by omega)]
  exact h

theorem angInRange_writeAng {s : State} {a : Int} (h : a = -65536 ∨ (0 ≤ a ∧ a ≤ 23592959)) :
    AngInRange (s.writeAng a) := by
  rw [AngInRange, writeAng_resAng, sext32_toInt (by omega) (by omega)]
  exact h

theorem ExecRule.inRange {s t : State} {i : Instr} (h : ExecRule s i t) (hs : InRange s) : InRange t := by
  obtain ⟨hcal, hxy, hmag, hang, hdir⟩ := hs
  obtain ⟨hx, hy⟩ := rawPoint_natAbs_le hcal
  have hreadMag := reading_mag hcal
  have hreadAng : (reading s).ang = -65536 ∨ (0 ≤ (reading s).ang ∧ (reading s).ang ≤ 23592959) := polarOf_ang _
  cases h with
  | raw => exact ⟨hcal, coordsInRange_writeXY hx hy, hmag, hang, hdir⟩
  | mapped =>
    exact ⟨hcal, coordsInRange_writeXY ((mapAxis_natAbs_le _ _).trans hx) ((mapAxis_natAbs_le _ _).trans hy),
      hmag, hang, hdir⟩
  | polar =>
    exact ⟨hcal, hxy, magInRange_writeMag (s := afterMapping s) hreadMag, angInRange_writeAng hreadAng, hdir⟩
  | mag => exact ⟨hcal, hxy, magInRange_writeMag hreadMag, hang, hdir⟩
  | angle => exact ⟨hcal, hxy, hmag, angInRange_writeAng hreadAng, hdir⟩
  | dir => exact ⟨hcal, hxy, hmag, hang, direction_code_le _⟩
  | init => exact ⟨⟨saturate_le _, saturate_le _⟩, hxy, hmag, hang, hdir⟩
  | refused | nop | clrerr | resetall | pressed | held => exact ⟨hcal, hxy, hmag, hang, hdir⟩

theorem inRange_reset : InRange State.reset := by decide

/-- Settles O51: a command keeps the ranges, RESET sets every register to 0, and no other step writes a register but
STATUS. -/
theorem stepKeepsRanges : Obligations.StepKeepsRanges := by
  intro s t hs h
  cases stepRule_of_step h with
  | command _ hrun => exact hrun.inRange hs
  | reset => exact inRange_reset
  | pin => rw [pinStep_eq]; exact hs
  | answer | illegal | analog => exact hs

end Sys2Proof.Proofs
end

section
/-! What alone can change each field of the state (10_state.md R16 to R26), and that the sticky flags are reports only
(R17). -/

namespace Sys2Proof.Proofs

open Sys2Proof.Machine Sys2Proof.Safety Sys2Proof.Laws

/-! STATUS (R16 to R21). -/

@[simp] theorem flag_mk_init (st : Status) (f : StickyFlag) (b : Bool) :
    ({ st with init := b } : Status).flag f = st.flag f := by cases f <;> rfl

@[simp] theorem flag_mk_false (init : Bool) (f : StickyFlag) :
    (⟨init, false, false, false, false⟩ : Status).flag f = false := by cases f <;> rfl

@[simp] theorem pressed_status (b : Button) (s : State) : (pressed b s).status = s.status := rfl

@[simp] theorem held_status (b : Button) (s : State) : (held b s).status = s.status := rfl

@[simp] theorem flag_afterSample (s : State) (f : StickyFlag) :
    (afterSample s).status.flag f = (s.status.flag f || (decide (f = .sat) && saturates s)) := by
  cases f <;> simp [afterSample, Status.flag]

@[simp] theorem flag_afterMapping (s : State) (f : StickyFlag) :
    (afterMapping s).status.flag f =
      (s.status.flag f || (decide (f = .sat) && saturates s) || (decide (f = .domerr) && outsideDomain s)) := by
  cases f <;> simp [afterMapping, Status.flag]

/-- The condition under which command `i` sets a flag (R18, R19, R21, R86); no legal command sets ILLEGAL (R20). -/
def Raises (s : State) (i : Instr) : StickyFlag → Prop
  | .nocal => s.status.init = false ∧ i ∈ geometryCommands
  | .domerr => s.status.init = true ∧ outsideDomain s = true ∧ i ∈ mappingCommands
  | .illegal => False
  | .sat => saturates s = true ∧ (i = .init ∨ s.status.init = true ∧ i ∈ geometryCommands)

/-- What is 1 in STATUS after a command: what was 1 before it, unless the command is CLRERR, and what it raises. -/
theorem ExecRule.flag_iff {s t : State} {i : Instr} {f : StickyFlag} (h : ExecRule s i t) :
    t.status.flag f = true ↔ (s.status.flag f = true ∧ i ≠ .clrerr) ∨ Raises s i f := by
  cases h with
  | refused hi hinit =>
    have hne : i ≠ .clrerr ∧ i ≠ .init := by constructor <;> rintro rfl <;> simp at hi
    cases f <;> simp [Raises, hi, hinit, hne]
  | raw hinit => cases f <;> simp [Raises, hinit]
  | mapped hinit | polar hinit | mag hinit | angle hinit | dir hinit => cases f <;> simp [Raises, hinit]
  | pressed b | held b => cases b <;> cases f <;> simp [Raises, Instr.pressed, Instr.held]
  | init | clrerr | nop | resetall => cases f <;> simp [Raises]

/-- Settles O41: only a command, an illegal word and RESET write STATUS. -/
theorem stickyFlagsStay : Obligations.StickyFlagsStay := by
  intro s t f h hf hclrerr hreset
  cases stepRule_of_step h with
  | command hnext hrun =>
    exact hrun.flag_iff.2 (.inl ⟨hf, by rintro rfl; exact hclrerr hnext⟩)
  | reset hnext => exact absurd ⟨_, hnext⟩ hreset
  | illegal => simp [hf]
  | pin => rw [pinStep_eq]; exact hf
  | answer | analog => exact hf

/-- A flag that goes from 0 to 1 in a step is raised by a command, or is ILLEGAL and an illegal word is written. -/
theorem raised_of_flag_set {s t : State} {f : StickyFlag} (h : step s = .next t) (hs : s.status.flag f = false)
    (ht : t.status.flag f = true) :
    (∃ i, Next s (command s.base i) ∧ Raises s i f) ∨
      f = .illegal ∧ ∃ w why, decode w = .illegal why ∧ Next s (.host (.write 4 s.base w)) := by
  have hunchanged : s.status.flag f ≠ true := by simp [hs]
  cases stepRule_of_step h with
  | @command rest i v hnext hrun =>
    rcases hrun.flag_iff.1 ht with ⟨hf, -⟩ | hraises
    · exact absurd hf hunchanged
    · exact .inl ⟨i, hnext, by cases f <;> exact hraises⟩
  | @illegal rest w why hnext hw =>
    have hf : f = .illegal := by simpa [hs, eq_comm] using ht
    exact .inr ⟨hf, w, why, hw, hnext⟩
  | reset => simp at ht
  | pin => rw [pinStep_eq] at ht; exact absurd ht hunchanged
  | answer | analog => exact absurd ht hunchanged

/-- Settles O42: what raises each flag. -/
theorem flagsSetOnlyByTheirConditions : Obligations.FlagsSetOnlyByTheirConditions := by
  intro s t h
  refine ⟨fun hs ht => ?_, fun hs ht => ?_, fun hs ht => ?_, fun hs ht => ?_⟩
  · obtain ⟨i, hnext, hinit, hi⟩ | ⟨hf, -⟩ := raised_of_flag_set (f := .nocal) h hs ht
    · exact ⟨hinit, i, hi, hnext⟩
    · cases hf
  · obtain ⟨i, hnext, hinit, hout, hi⟩ | ⟨hf, -⟩ := raised_of_flag_set (f := .domerr) h hs ht
    · exact ⟨hinit, hout, i, hi, hnext⟩
    · cases hf
  · obtain ⟨_, -, hfalse⟩ | ⟨-, hword⟩ := raised_of_flag_set (f := .illegal) h hs ht
    · exact hfalse.elim
    · exact hword
  · obtain ⟨i, hnext, hsat, rfl | ⟨hinit, hi⟩⟩ | ⟨hf, -⟩ := raised_of_flag_set (f := .sat) h hs ht
    · exact ⟨hsat, .inl hnext⟩
    · exact ⟨hsat, .inr ⟨hinit, i, hi, hnext⟩⟩
    · cases hf

/-- A command keeps STATUS.INIT, but INIT sets it (R16). -/
theorem ExecRule.init_iff {s t : State} {i : Instr} (h : ExecRule s i t) :
    t.status.init = true ↔ s.status.init = true ∨ i = .init := by
  cases h with
  | init => simp
  | refused hi =>
    have hne : i ≠ .init := by rintro rfl; simp at hi
    simp [hne]
  | pressed b | held b => cases b <;> simp [Instr.pressed, Instr.held]
  | raw | mapped | polar | mag | angle | dir => simp [afterSample, afterMapping]
  | nop | clrerr | resetall => simp

/-- Settles O43: of all steps only a command and RESET write STATUS.INIT. -/
theorem initBitSetAndClearedOnlySo : Obligations.InitBitSetAndClearedOnlySo := by
  intro s t h
  cases stepRule_of_step h with
  | @command rest i v hnext hrun =>
    have hiff : v.status.init = true ↔ s.status.init = true ∨ i = .init := hrun.init_iff
    constructor
    · intro hs ht
      obtain hinit | rfl := hiff.1 ht
      · simp [hs] at hinit
      · exact hnext
    · intro hs ht
      have := hiff.2 (.inl hs)
      simp_all
  | reset hnext => exact ⟨fun _ ht => by simp at ht, fun _ _ => ⟨_, hnext⟩⟩
  | pin | answer | illegal | analog => constructor <;> intro hs ht <;> simp [pinStep_eq, hs] at ht

/-! The origin (R23), LEVEL and LATCH (R25, R26). -/

theorem ExecRule.origin_eq {s t : State} {i : Instr} (h : ExecRule s i t) (hi : i ≠ .init) :
    t.calX0 = s.calX0 ∧ t.calY0 = s.calY0 := by
  cases h with
  | init => exact absurd rfl hi
  | _ => exact ⟨rfl, rfl⟩

/-- Settles O44: of the commands only INIT writes the origin, and of the other steps only RESET. -/
theorem originChangesOnlyAtInitOrReset : Obligations.OriginChangesOnlyAtInitOrReset := by
  intro s t h hne
  cases stepRule_of_step h with
  | @command rest i v hnext hrun =>
    by_cases hi : i = .init
    · exact .inl (hi ▸ hnext)
    · obtain ⟨hx, hy⟩ := hrun.origin_eq hi
      simp [hx, hy] at hne
  | reset hnext => exact .inr ⟨_, hnext⟩
  | pin | answer | illegal | analog => simp [pinStep_eq] at hne

/-- Settles O45: no command writes LEVEL, and PIN writes its own button's bit. -/
theorem levelChangesOnlyAtPinOrReset : Obligations.LevelChangesOnlyAtPinOrReset := by
  intro s t b h hne
  cases stepRule_of_step h with
  | command _ hrun =>
    obtain ⟨hlevel, -⟩ := exec_keeps_environment (exec_iff.2 hrun)
    simp [hlevel] at hne
  | @pin rest c l hnext =>
    have hcb : c = b := by
      by_contra hcb
      simp [pinStep_eq, hcb] at hne
    exact .inl ⟨l, hcb ▸ hnext⟩
  | reset hnext => exact .inr ⟨_, hnext⟩
  | answer | illegal | analog => simp at hne

/-- The commands that clear LATCH[b] (R95, R97, R103). -/
abbrev clearsLatch (b : Button) (i : Instr) : Prop := i = .pressed b ∨ i = .resetall ∨ i = .init

@[simp] theorem pressed_latch (b : Button) (s : State) : (pressed b s).latch = setLine s.latch b false := rfl

@[simp] theorem held_latch (b : Button) (s : State) : (held b s).latch = s.latch := rfl

theorem pressed_inj {b c : Button} : Instr.pressed b = .pressed c ↔ b = c := by
  cases b <;> cases c <;> decide

/-- What is 1 in LATCH after a command: what was 1 before it and the command does not clear. -/
theorem ExecRule.latch_iff {s t : State} {i : Instr} {b : Button} (h : ExecRule s i t) :
    lineBit t.latch b = true ↔ lineBit s.latch b = true ∧ ¬clearsLatch b i := by
  cases h with
  | init | resetall => simp
  | pressed c =>
    have hne : Instr.pressed c ≠ .resetall ∧ Instr.pressed c ≠ .init := by cases c <;> decide
    by_cases hcb : c = b <;> simp [pressed_inj, hne, hcb]
  | held c => cases b <;> cases c <;> simp [Instr.held, Instr.pressed]
  | refused hi =>
    have hne : ¬clearsLatch b i := by rintro (rfl | rfl | rfl) <;> cases b <;> simp [Instr.pressed] at hi
    simp [hne]
  | raw | mapped | polar | mag | angle | dir => cases b <;> simp [Instr.pressed, afterSample, afterMapping]
  | nop | clrerr => cases b <;> simp [Instr.pressed]

/-- Settles O46: no command sets a latch, and PIN sets its own button's on an armed falling edge. -/
theorem latchSetOnlyByArmedEdge : Obligations.LatchSetOnlyByArmedEdge := by
  intro s t b h hs ht
  have hunchanged : lineBit s.latch b ≠ true := by simp [hs]
  cases stepRule_of_step h with
  | command _ hrun => exact absurd (hrun.latch_iff.1 ht).1 hunchanged
  | @pin rest c l hnext =>
    simp only [pinStep_eq] at ht
    split at ht
    · rename_i harmed
      simp only [Bool.and_eq_true, Bool.not_eq_true'] at harmed
      obtain ⟨⟨hlevel, rfl⟩, hinit⟩ := harmed
      have hcb : c = b := by
        by_contra hcb
        simp [hcb, hs] at ht
      subst hcb
      exact ⟨hnext, hlevel, hinit⟩
    · exact absurd ht hunchanged
  | reset => simp at ht
  | answer | illegal | analog => exact absurd ht hunchanged

/-- Settles O47: of the commands only PRESSED b, RESETALL and INIT clear the latch; PIN never does. -/
theorem latchClearedOnlySo : Obligations.LatchClearedOnlySo := by
  intro s t b h hs ht
  have hunchanged : lineBit s.latch b ≠ false := by simp [hs]
  cases stepRule_of_step h with
  | @command rest i v hnext hrun =>
    have hclears : clearsLatch b i := by
      by_contra hkeeps
      have := hrun.latch_iff.2 ⟨hs, hkeeps⟩
      simp_all
    obtain rfl | rfl | rfl := hclears
    · exact .inl hnext
    · exact .inr (.inl hnext)
    · exact .inr (.inr (.inl hnext))
  | reset hnext => exact .inr (.inr (.inr ⟨_, hnext⟩))
  | pin =>
    simp only [pinStep_eq] at ht
    split at ht
    · simp [hs] at ht
    · exact absurd ht hunchanged
  | answer | illegal | analog => exact absurd ht hunchanged

/-! The result registers (R24): a command writes those its rule names and keeps the others. -/

theorem ExecRule.xy {s t : State} {i : Instr} (h : ExecRule s i t) :
    (t.resX = s.resX ∧ t.resY = s.resY) ∨ i ∈ [Instr.raw, .mapped] := by
  cases h with
  | raw | mapped => exact .inr (by simp)
  | _ => exact .inl ⟨rfl, rfl⟩

theorem ExecRule.mag_eq {s t : State} {i : Instr} (h : ExecRule s i t) :
    t.resMag = s.resMag ∨ i ∈ [Instr.polar, .mag] := by
  cases h with
  | polar | mag => exact .inr (by simp)
  | _ => exact .inl rfl

theorem ExecRule.ang_eq {s t : State} {i : Instr} (h : ExecRule s i t) :
    t.resAng = s.resAng ∨ i ∈ [Instr.polar, .angle] := by
  cases h with
  | polar | angle => exact .inr (by simp)
  | _ => exact .inl rfl

theorem ExecRule.dir_eq {s t : State} {i : Instr} (h : ExecRule s i t) : t.resDir = s.resDir ∨ i = .dir := by
  cases h with
  | dir => exact .inr rfl
  | _ => exact .inl rfl

theorem ExecRule.bit_eq {s t : State} {i : Instr} (h : ExecRule s i t) :
    t.resBit = s.resBit ∨ ∃ b, i = .pressed b ∨ i = .held b := by
  cases h with
  | pressed b => exact .inr ⟨b, .inl rfl⟩
  | held b => exact .inr ⟨b, .inr rfl⟩
  | _ => exact .inl rfl

/-- Settles O48: the results that the command keeps, and the steps that keep them all. -/
theorem resultsWrittenOnlyByTheirCommands : Obligations.ResultsWrittenOnlyByTheirCommands := by
  intro s t h hreset
  cases stepRule_of_step h with
  | @command rest i v hnext hrun =>
    refine ⟨fun hne => ?_, fun hne => ⟨i, hrun.mag_eq.resolve_left hne, hnext⟩,
      fun hne => ⟨i, hrun.ang_eq.resolve_left hne, hnext⟩, fun hne => ?_, fun hne => ?_⟩
    · exact ⟨i, hrun.xy.resolve_left fun ⟨hx, hy⟩ => hne.elim (· hx) (· hy), hnext⟩
    · exact hrun.dir_eq.resolve_left hne ▸ hnext
    · obtain ⟨b, rfl | rfl⟩ := hrun.bit_eq.resolve_left hne
      · exact ⟨b, .inl hnext⟩
      · exact ⟨b, .inr hnext⟩
  | reset hnext => exact absurd ⟨_, hnext⟩ hreset
  | pin | answer | illegal | analog => simp [pinStep_eq]

/-! The flags report and nothing else (R17). -/

theorem withoutFlags_setFlag (s : State) (f : StickyFlag) : withoutFlags (s.setFlag f) = withoutFlags s := by
  cases f <;> rfl

/-- No rule of a command looks at a sticky flag: with the flags taken away before it, a command goes the same way and
leads to the same state, but for the flags. -/
theorem ExecRule.exists_withoutFlags {s t : State} {i : Instr} (h : ExecRule s i t) :
    ∃ u, ExecRule (withoutFlags s) i u ∧ withoutFlags u = withoutFlags t := by
  cases h with
  | refused hi hinit => exact ⟨_, .refused hi hinit, by simp only [withoutFlags_setFlag]; rfl⟩
  | raw hinit => exact ⟨_, .raw hinit, rfl⟩
  | mapped hinit => exact ⟨_, .mapped hinit, rfl⟩
  | polar hinit => exact ⟨_, .polar hinit, rfl⟩
  | mag hinit => exact ⟨_, .mag hinit, rfl⟩
  | angle hinit => exact ⟨_, .angle hinit, rfl⟩
  | dir hinit => exact ⟨_, .dir hinit, rfl⟩
  | nop => exact ⟨_, .nop, rfl⟩
  | init => exact ⟨_, .init, rfl⟩
  | clrerr => exact ⟨_, .clrerr, rfl⟩
  | resetall => exact ⟨_, .resetall, rfl⟩
  | pressed b => exact ⟨_, .pressed b, rfl⟩
  | held b => exact ⟨_, .held b, rfl⟩

/-- Settles O49: both runs are the one run from the state without the flags, but for the flags. -/
theorem flagsAreReportsOnly : Obligations.FlagsAreReportsOnly := by
  intro i s s' t t' hss h h'
  obtain ⟨u, hu, hut⟩ := (exec_iff.1 h).exists_withoutFlags
  obtain ⟨u', hu', hut'⟩ := (exec_iff.1 h').exists_withoutFlags
  have huu : u = u' := by
    rw [← hss] at hu'
    exact Host.Outcome.next.inj ((exec_iff.2 hu).symm.trans (exec_iff.2 hu'))
  rw [← hut, ← hut', huu]

end Sys2Proof.Proofs
end

section
/-! What the host reads of the registers (10_state.md R15, R22; 20_memory.md R41), PU_EN (10_state.md R30), and both
after reset (70_reset_and_hazards.md R127). -/

namespace Sys2Proof.Proofs

open Sys2Proof.Machine Sys2Proof.Safety Sys2Proof.Laws

theorem offset_aligned (r : Reg) : r.offset % 4 = 0 := by cases r <;> rfl

theorem hostRead_reg {s : State} {r : Reg} {v : Word} (h : s.readReg r = some v) :
    hostRead 4 (s.base + r.offset) s = .next (s.respond (.readData v)) := by
  have hin : s.inWindow (s.base + r.offset) = true := by
    simp [State.inWindow, offset_lt_window]
  have hword : wordAccess 4 (s.base + r.offset) = true := by
    have hbase := base_aligned s
    have hoff := offset_aligned r
    simp only [wordAccess, Config.accessBytes, beq_self_eq_true, Bool.true_and, beq_iff_eq]
    omega
  simp [hostRead, hin, hword, h]

theorem statusWord_eq (st : Status) :
    st.word = BitVec.ofNat 32 (st.init.toNat + 2 * st.nocal.toNat + 4 * st.domerr.toNat + 8 * st.illegal.toNat +
      16 * st.sat.toNat) := by
  obtain ⟨init, nocal, domerr, illegal, sat⟩ := st
  revert init nocal domerr illegal sat
  decide

/-- Settles O8: each pair of the list is a register's offset and its value. -/
theorem readsAnswerRegisters : Obligations.ReadsAnswerRegisters := by
  intro s off v rest hmem hp
  have hreg : ∃ r : Reg, off = r.offset ∧ s.readReg r = some (BitVec.ofNat 32 v) := by
    simp only [List.mem_cons, List.not_mem_nil, or_false, Prod.mk.injEq] at hmem
    obtain ⟨rfl, rfl⟩ | ⟨rfl, rfl⟩ | ⟨rfl, rfl⟩ | ⟨rfl, rfl⟩ | ⟨rfl, rfl⟩ |
      ⟨rfl, rfl⟩ | ⟨rfl, rfl⟩ | ⟨rfl, rfl⟩ | ⟨rfl, rfl⟩ := hmem
    · exact ⟨.status, rfl, by rw [State.readReg, statusWord_eq]⟩
    · exact ⟨.resX, rfl, by simp [State.readReg]⟩
    · exact ⟨.resY, rfl, by simp [State.readReg]⟩
    · exact ⟨.resMag, rfl, by simp [State.readReg]⟩
    · exact ⟨.resAng, rfl, by simp [State.readReg]⟩
    · exact ⟨.resDir, rfl, by simp [State.readReg, zext32]⟩
    · exact ⟨.resBit, rfl, by simp [State.readReg, zext32]⟩
    · exact ⟨.calX0, rfl, by simp [State.readReg, zext32]⟩
    · exact ⟨.calY0, rfl, by simp [State.readReg, zext32]⟩
  obtain ⟨r, rfl, hread⟩ := hreg
  rw [step_of_pending_cons hp]
  exact hostRead_reg (s := { s with pending := rest }) hread

/-- Settles O15: the mask is 0b11111 or 0. -/
theorem pullUpsFollowInit : Obligations.PullUpsFollowInit := by
  intro s k hk
  have hones : ∀ k < 5, (0b11111 : Lines).getLsbD k = true := by decide
  cases hinit : s.status.init
  · simp [State.puEn, hinit]
  · rw [State.puEn, hinit, if_pos rfl, hones k hk]

/-- Settles O36: the values of State.reset, register by register and button by button. -/
theorem resetStateValues : Obligations.ResetStateValues := by
  refine ⟨fun r hr => ?_, fun b => lineBit_zero b, rfl⟩
  cases r with
  | cmd => exact absurd rfl hr
  | _ => rfl

end Sys2Proof.Proofs
end

section
/-! The host's transactions on the window (20_memory.md R36 to R44): the write of a legal word to CMD, the accesses that
are bus errors, the byte lanes; and the latch over a run of steps (20_memory.md R47; 41_buttons.md R92, R100). -/

namespace Sys2Proof.Proofs

open Sys2Proof.Machine Sys2Proof.Safety Sys2Proof.Laws

/-! What every step does to the steps to come and to BASE (00_scope.md R5, R13). -/

/-- Every step takes its event off and leaves BASE where it is. -/
theorem step_pending_base {s t : State} (h : step s = .next t) : t.pending = s.pending.tail ∧ t.base = s.base := by
  rcases step_cases h with ⟨hp, rfl⟩ | ⟨e, rest, hp, u, rfl, hcases⟩
  · exact ⟨by rw [hp, List.tail_nil], rfl⟩
  · rw [hp, List.tail_cons]
    rcases hcases with ⟨a, r, -, rfl⟩ | ⟨i, w, v, -, -, hexec, rfl⟩ | ⟨why, w, -, -, rfl⟩ | ⟨b, l, -, rfl⟩ |
      ⟨p, q, -, rfl⟩ | ⟨btnIn, -, rfl⟩
    · exact ⟨rfl, rfl⟩
    · obtain ⟨-, -, -, hpage, hpending, -⟩ := exec_keeps_environment hexec
      exact ⟨hpending, by rw [State.base, respond_basePage, hpage]; rfl⟩
    · exact ⟨rfl, rfl⟩
    · rw [pinStep_eq]; exact ⟨rfl, rfl⟩
    · exact ⟨rfl, rfl⟩
    · exact ⟨rfl, rfl⟩

theorem run_succ_inv {k : Nat} {s t : State} (h : Host.Core.run core (k + 1) s = .next t) :
    ∃ u, step s = .next u ∧ Host.Core.run core k u = .next t := by
  obtain ⟨u, hu⟩ := everyStepCompletes s
  have hstep : core.step s = .next u := hu
  simp only [Host.Core.run, hstep] at h
  exact ⟨u, hu, h⟩

/-! The latch over a run. -/

/-- The events that may come between an edge of `b` and its report: all but PRESSED b, RESETALL, INIT and RESET (R95,
R97, R103, R125), for a window at `base`. -/
abbrev KeepsLatch (base : Nat) (b : Button) (e : Event) : Prop :=
  e ≠ command base (.pressed b) ∧ e ≠ command base .resetall ∧ e ≠ command base .init ∧ ∀ btnIn, e ≠ .reset btnIn

theorem step_keeps_latch {s t : State} {b : Button} (h : step s = .next t) (hs : lineBit s.latch b = true)
    (hnext : ∀ e, Next s e → KeepsLatch s.base b e) : lineBit t.latch b = true := by
  by_contra hclear
  rcases latchClearedOnlySo s t b h hs (Bool.eq_false_of_not_eq_true hclear) with hn | hn | hn | ⟨btnIn, hn⟩ <;>
    obtain ⟨hpressed, hresetall, hinit, hreset⟩ := hnext _ hn
  · exact hpressed rfl
  · exact hresetall rfl
  · exact hinit rfl
  · exact hreset btnIn rfl

theorem run_keeps_latch {b : Button} (k : Nat) {s t : State} (hs : lineBit s.latch b = true)
    (hkeeps : ∀ e ∈ s.pending.take k, KeepsLatch s.base b e) (h : Host.Core.run core k s = .next t) :
    lineBit t.latch b = true := by
  induction k generalizing s with
  | zero => cases h; exact hs
  | succ k ih =>
    obtain ⟨u, hstep, hrun⟩ := run_succ_inv h
    refine ih (step_keeps_latch hstep hs fun e he => hkeeps e ?_) (fun e he => ?_) hrun
    · exact List.mem_of_mem_head? (by rwa [List.head?_take, if_neg k.succ_ne_zero])
    · obtain ⟨hpending, hbase⟩ := step_pending_base hstep
      rw [hpending, ← List.drop_one, List.take_drop] at he
      rw [hbase]
      exact hkeeps e (List.mem_of_mem_drop (by rwa [Nat.add_comm] at he))

/-- An armed falling edge sets the latch (R92). -/
theorem pinStep_sets_latch {b : Button} {s : State} (hlevel : lineBit s.level b = true) (hinit : s.status.init = true) :
    lineBit (pinStep b false s).latch b = true := by
  simp [pinStep_eq, hlevel, hinit]

@[simp] theorem pressed_resBit (b : Button) (s : State) : (pressed b s).resBit = BitVec.ofBool (lineBit s.latch b) := rfl

/-- Settles O55: the edge sets the latch, and by induction on the number of steps none of the others clears it. -/
theorem noEdgeLost : Obligations.NoEdgeLost := by
  intro k s t b rest hp hlevel hinit hkeeps h
  obtain ⟨u, hstep, hrun⟩ := run_succ_inv h
  obtain ⟨hpending, hbase⟩ := step_pending_base hstep
  rw [hp, List.tail_cons] at hpending
  have hu : u = pinStep b false { s with pending := rest } := by
    rw [step_of_pending_cons hp] at hstep
    exact (Host.Outcome.next.inj hstep).symm
  have hedge : lineBit u.latch b = true := hu ▸ pinStep_sets_latch hlevel hinit
  have hlatch : lineBit t.latch b = true :=
    run_keeps_latch k hedge (by rwa [hpending, hbase]) hrun
  exact ⟨pressed b t, exec_iff.2 (.pressed b), by rw [pressed_resBit, hlatch]; rfl⟩

/-! Bus errors. -/

theorem inWindow_iff {s : State} {addr : Nat} : s.inWindow addr = true ↔ s.base ≤ addr ∧ addr < s.base + 64 := by
  simp [State.inWindow]

theorem wordAccess_iff {bytes addr : Nat} : wordAccess bytes addr = true ↔ bytes = 4 ∧ addr % 4 = 0 := by
  simp [wordAccess]

/-- Nothing can be read at the offset of CMD and at the reserved ones (R36, R43). -/
theorem readReg_atOffset_eq_none {off : Nat} (s : State) (h : off = 0 ∨ 0x28 ≤ off) :
    (Reg.atOffset off).bind s.readReg = none := by
  cases hr : Reg.atOffset off with
  | none => rfl
  | some r =>
    have hoff := atOffset_eq_some hr
    cases r with
    | cmd => rfl
    | _ => simp only [Reg.offset] at hoff; omega

theorem hostRead_busError {s : State} {bytes addr : Nat} (hin : s.inWindow addr = true)
    (hbad : wordAccess bytes addr = true → (Reg.atOffset (addr - s.base)).bind s.readReg = none) :
    hostRead bytes addr s = raiseBusError addr s := by
  rw [hostRead, if_pos hin]
  split
  · rename_i hword
    rw [hbad hword]
  · rfl

theorem hostWrite_busError {s : State} {bytes addr : Nat} {data : Word} (hin : s.inWindow addr = true)
    (hbad : wordAccess bytes addr = true → addr ≠ s.base) : hostWrite bytes addr data s = raiseBusError addr s := by
  rw [hostWrite, if_pos hin, if_neg]
  intro hcmd
  rw [Bool.and_eq_true, beq_iff_eq] at hcmd
  obtain ⟨hword, hoff⟩ := hcmd
  have hzero : addr - s.base = 0 := atOffset_eq_some hoff
  obtain ⟨hbase, -⟩ := inWindow_iff.1 hin
  exact hbad hword (by omega)

/-- Settles O9: a word access that is no bus error reads a register that can be read, or writes CMD. -/
theorem busErrorsChangeNothing : Obligations.BusErrorsChangeNothing := by
  intro s bytes addr data rest hlow hhigh
  have hin : State.inWindow { s with pending := rest } addr = true := inWindow_iff.2 ⟨hlow, hhigh⟩
  constructor
  · intro hbad hp
    rw [step_of_pending_cons hp]
    refine hostRead_busError hin fun hword => readReg_atOffset_eq_none _ ?_
    obtain ⟨hbytes, haligned⟩ := wordAccess_iff.1 hword
    change addr - s.base = 0 ∨ 0x28 ≤ addr - s.base
    omega
  · intro hbad hp
    rw [step_of_pending_cons hp]
    refine hostWrite_busError hin fun hword => ?_
    obtain ⟨hbytes, haligned⟩ := wordAccess_iff.1 hword
    change addr ≠ s.base
    omega

/-! The write of a legal word to CMD. -/

theorem executeWord_of_legal {w : Word} {i : Instr} (h : decode w = .legal i) (s : State) :
    executeWord w s = exec i s := by
  rw [executeWord, h]

theorem step_of_pending_command {s : State} {w : Word} {i : Instr} {rest : List Event} (hw : decode w = .legal i)
    (hp : s.pending = .host (.write 4 s.base w) :: rest) :
    step s = withOkay (exec i { s with pending := rest }) := by
  rw [step_of_pending_cons hp, ← executeWord_of_legal hw]
  exact hostWrite_cmd w { s with pending := rest }

theorem withFetchWord_pending (s : State) (w : Word) :
    (s.withFetchWord 32 w.toNat).pending = .host (.write 4 (s.withFetchWord 32 w.toNat).base w) :: s.pending := by
  have hword : BitVec.ofNat 32 (w.toNat % 2 ^ 32) = w := by
    rw [Nat.mod_eq_of_lt w.isLt, BitVec.ofNat_toNat, BitVec.setWidth_eq]
  rw [State.withFetchWord, hword]
  rfl

/-- Settles O5: both steps are the write of the word to CMD, the second with the steps of `s` still to come after it. -/
theorem stepRunsDecodedCommand : Obligations.StepRunsDecodedCommand := by
  intro s t w i rest hw
  constructor
  · intro hp hexec
    rw [step_of_pending_command hw hp, hexec]
    rfl
  · intro hexec
    have hrest : { s.withFetchWord 32 w.toNat with pending := s.pending } = s := rfl
    rw [step_of_pending_command hw (withFetchWord_pending s w), hrest, hexec]
    rfl

/-! Byte lanes. -/

/-- Settles O11: eight bits from bit 8k on are the quotient by 2^(8k), modulo 256. -/
theorem byteLanesLittleEndian : Obligations.ByteLanesLittleEndian := by
  intro s r v hread k _
  rw [State.laneByte, hread, Option.map_some, BitVec.extractLsb', Nat.shiftRight_eq_div_pow]

end Sys2Proof.Proofs
end

section
/-! The decoder, the encoder and the assembler of 30_encoding.md: what each word decodes to, in the terms of the checks
of WellFormed.lean (R53 to R57), and what each mnemonic assembles to (R52, R60). -/

namespace Sys2Proof.Proofs

open Sys2Proof.Machine Sys2Proof.Laws

/-! The decoder inverts the encoder (R51, R52, R57). -/

theorem decode_toWord {f : Fields} (hrsv : f.rsv = 0) (hr3 : f.r3 = 0) : decode f.toWord = decodeOp f.op f.btn := by
  simp [decode, hrsv, hr3]

theorem decodeOp_fields (i : Instr) : decodeOp i.fields.op i.fields.btn = .legal i := by
  cases i <;> rfl

theorem decode_encode (i : Instr) : decode (encode i) = .legal i :=
  (decode_toWord (f := i.fields) rfl rfl).trans (decodeOp_fields i)

theorem instr_wellFormed (i : Instr) : i.wellFormed = true := by
  cases i <;> rfl

/-- Settles O1: a command's word carries its fields, and the fields of a legal word are its command's. -/
theorem decodeInvertsEncode : Obligations.DecodeInvertsEncode :=
  ⟨fun i => ⟨instr_wellFormed i, decode_encode i⟩, fun _ _ => eq_encode_of_decode⟩

/-- Settles O4: the nine words are the encoded words of their commands. -/
theorem listedWordsDecode : Obligations.ListedWordsDecode :=
  ⟨decode_encode .nop, decode_encode .init, decode_encode .raw, decode_encode .dir, decode_encode .pressedA,
    decode_encode .pressedStart, decode_encode .heldY, decode_encode .resetall, decode_encode .clrerr⟩

/-! The checks of WellFormed.lean on the fields as numbers (R53 to R56). -/

theorem reservedZero_iff {f : Fields} : f.reservedZero = true ↔ f.rsv.toNat = 0 ∧ f.r3.toNat = 0 := by
  simp [Fields.reservedZero, ← BitVec.toNat_inj]

theorem opDefined_iff {f : Fields} : f.opDefined = true ↔ f.op.toNat ≤ 11 := by
  simp [Fields.opDefined]

theorem takesButton_iff {f : Fields} : f.takesButton = true ↔ f.op.toNat = 8 ∨ f.op.toNat = 9 := by
  simp [Fields.takesButton, ← BitVec.toNat_inj]

theorem buttonFits_of_takesButton {f : Fields} (h : f.takesButton = true) :
    f.buttonFits = true ↔ f.btn.toNat ≤ 4 := by
  simp [Fields.buttonFits, h]

theorem buttonFits_of_not_takesButton {f : Fields} (h : ¬f.takesButton = true) :
    f.buttonFits = true ↔ f.btn.toNat = 0 := by
  simp [Fields.buttonFits, h, ← BitVec.toNat_inj]

/-! What a word decodes to: the first check that fails names the reason (R57). -/

/-- The command or the reason that the checks on the fields call for, in the order of R57. -/
inductive Verdict (f : Fields) : Command → Prop
  | reservedBits (hzero : ¬f.reservedZero = true) : Verdict f (.illegal .reservedBits)
  | reservedOp (hzero : f.reservedZero = true) (hop : ¬f.opDefined = true) : Verdict f (.illegal .reservedOp)
  | buttonNotZero (hzero : f.reservedZero = true) (hop : f.opDefined = true) (htakes : ¬f.takesButton = true)
      (hfits : ¬f.buttonFits = true) : Verdict f (.illegal .buttonNotZero)
  | noSuchButton (hzero : f.reservedZero = true) (hop : f.opDefined = true) (htakes : f.takesButton = true)
      (hfits : ¬f.buttonFits = true) : Verdict f (.illegal .noSuchButton)
  | legal (i : Instr) (hzero : f.reservedZero = true) (hop : f.opDefined = true) (hfits : f.buttonFits = true) :
      Verdict f (.legal i)

theorem ofCode_eq_none_iff {btn : BitVec 3} : Button.ofCode btn = none ↔ ¬btn.toNat ≤ 4 := by
  revert btn
  decide

theorem decodePlain_verdict {f : Fields} (hzero : f.reservedZero = true) (hop : f.opDefined = true)
    (htakes : ¬f.takesButton = true) (i : Instr) : Verdict f (decodePlain f.btn i) := by
  have hfits := buttonFits_of_not_takesButton htakes
  rw [← BitVec.toNat_zero (w := 3), BitVec.toNat_inj] at hfits
  rw [decodePlain]
  split
  · exact .legal i hzero hop (hfits.2 ‹_›)
  · exact .buttonNotZero hzero hop htakes (mt hfits.1 ‹_›)

theorem decodeButton_verdict {f : Fields} (hzero : f.reservedZero = true) (hop : f.opDefined = true)
    (htakes : f.takesButton = true) (row : Button → Instr) : Verdict f (decodeButton f.btn row) := by
  have hfits := buttonFits_of_takesButton htakes
  cases hb : Button.ofCode f.btn with
  | some b =>
    have hle : f.btn.toNat ≤ 4 := by
      by_contra hgt
      rw [ofCode_eq_none_iff.2 hgt] at hb
      cases hb
    simpa [decodeButton, hb] using .legal (row b) hzero hop (hfits.2 hle)
  | none => simpa [decodeButton, hb] using .noSuchButton hzero hop htakes (mt hfits.1 (ofCode_eq_none_iff.1 hb))

theorem decodeOp_verdict {f : Fields} (hzero : f.reservedZero = true) : Verdict f (decodeOp f.op f.btn) := by
  rw [decodeOp]
  split
  case h_9 h | h_10 h =>
    exact decodeButton_verdict hzero (opDefined_iff.2 (by omega)) (takesButton_iff.2 (by omega)) _
  case h_13 => exact .reservedOp hzero (mt opDefined_iff.1 (by grind))
  all_goals exact decodePlain_verdict hzero (opDefined_iff.2 (by omega)) (mt takesButton_iff.1 (by omega)) _

theorem reservedZero_iff_not_or {f : Fields} : f.reservedZero = true ↔ ¬(f.rsv ≠ 0 ∨ f.r3 ≠ 0) := by
  simp [Fields.reservedZero]

theorem decode_verdict (w : Word) : Verdict (Fields.ofWord w) (decode w) := by
  rw [decode]
  split
  case isTrue hset => exact .reservedBits (mt reservedZero_iff_not_or.1 (not_not.2 hset))
  case isFalse hclear => exact decodeOp_verdict (reservedZero_iff_not_or.2 hclear)

/-- Only the verdict of a legal command has all three checks pass. -/
theorem Verdict.legal_iff {f : Fields} {c : Command} (h : Verdict f c) :
    (∃ i, c = .legal i) ↔ f.wellFormed = true := by
  simp only [Fields.wellFormed, Bool.and_eq_true]
  cases h with
  | reservedBits hzero => simp [hzero]
  | reservedOp _ hop => simp [hop]
  | buttonNotZero _ _ _ hfits => simp [hfits]
  | noSuchButton _ _ _ hfits => simp [hfits]
  | legal i hzero hop hfits => simp [hzero, hop, hfits]

/-- The verdicts exclude each other. -/
theorem Verdict.illegal_iff {f : Fields} {c : Command} (h : Verdict f c) :
    (c = .illegal .reservedBits ↔ ¬f.reservedZero = true) ∧
      (c = .illegal .reservedOp ↔ f.reservedZero = true ∧ ¬f.opDefined = true) ∧
      (c = .illegal .buttonNotZero ↔
        f.reservedZero = true ∧ f.opDefined = true ∧ ¬f.takesButton = true ∧ ¬f.buttonFits = true) ∧
      (c = .illegal .noSuchButton ↔
        f.reservedZero = true ∧ f.opDefined = true ∧ f.takesButton = true ∧ ¬f.buttonFits = true) := by
  cases h with
  | reservedBits hzero => simp [hzero]
  | reservedOp hzero hop => simp [hzero, hop]
  | buttonNotZero hzero hop htakes hfits => simp [hzero, hop, htakes, hfits]
  | noSuchButton hzero hop htakes hfits => simp [hzero, hop, htakes, hfits]
  | legal i hzero hop hfits => simp [hzero, hop, hfits]

/-- Settles O3: a word is legal when its verdict is a command. -/
theorem legalIffFieldsWellFormed : Obligations.LegalIffFieldsWellFormed := fun w =>
  (decode_verdict w).legal_iff

/-- Settles O2: the verdicts exclude each other, and each check is read on the word's number. -/
theorem illegalWordsNamedByRule : Obligations.IllegalWordsNamedByRule := by
  intro w reserved op btn
  obtain ⟨hrsv, hopNat, hr3, hbtn⟩ := ofWord_toNat w
  have hzero : (Fields.ofWord w).reservedZero = true ↔ ¬reserved := by
    rw [reservedZero_iff, hrsv, hr3, not_or, not_ne_iff, not_ne_iff]
  have hdefined : (Fields.ofWord w).opDefined = true ↔ op ≤ 11 := by rw [opDefined_iff, hopNat]
  have htakes : (Fields.ofWord w).takesButton = true ↔ op = 8 ∨ op = 9 := by rw [takesButton_iff, hopNat]
  have hplain : ¬(Fields.ofWord w).takesButton = true ∧ ¬(Fields.ofWord w).buttonFits = true ↔
      op ≠ 8 ∧ op ≠ 9 ∧ btn ≠ 0 := by
    rw [and_congr_right fun h => not_congr (buttonFits_of_not_takesButton h), htakes, hbtn, not_or, and_assoc]
  have hbutton : (Fields.ofWord w).takesButton = true ∧ ¬(Fields.ofWord w).buttonFits = true ↔
      (op = 8 ∨ op = 9) ∧ 5 ≤ btn := by
    rw [and_congr_right fun h => not_congr (buttonFits_of_takesButton h), htakes, hbtn, not_le, Nat.lt_iff_add_one_le]
  obtain ⟨hbits, hreservedOp, hnotZero, hnoSuch⟩ := (decode_verdict w).illegal_iff
  refine ⟨?_, ?_, ?_, ?_⟩
  · rw [hbits, hzero, not_not]
  · rw [hreservedOp, hzero, hdefined, not_le, Nat.lt_iff_add_one_le]
  · rw [hnotZero, hzero, hdefined, hplain]
  · rw [hnoSuch, hzero, hdefined, hbutton]
    exact and_congr_right fun _ => and_iff_right_of_imp fun ⟨hop, _⟩ => by omega

/-! The assembler (R60). -/

theorem encode_pressed (b : Button) : encode (.pressed b) = BitVec.ofNat 32 (0x80 + b.code.toNat) := by
  cases b <;> rfl

theorem encode_held (b : Button) : encode (.held b) = BitVec.ofNat 32 (0x90 + b.code.toNat) := by
  cases b <;> rfl

/-- Each button's name in capitals, its number as a text, and its number (R53). -/
abbrev buttonSpellings : List (String × String × ℕ) :=
  [("A", "0", 0), ("B", "1", 1), ("X", "2", 2), ("Y", "3", 3), ("START", "4", 4)]

theorem toUpper_number : ∀ row ∈ buttonSpellings, row.2.1.toUpper = row.2.1 := by
  decide +kernel

/-- A text that is a button's name or number when put into capitals names that button. -/
theorem buttonOfText_of_toUpper {t name number : String} {k : Nat} (hrow : (name, number, k) ∈ buttonSpellings)
    (ht : t.toUpper = name ∨ t.toUpper = number) : ∃ b, buttonOfText t = some b ∧ b.code.toNat = k := by
  simp only [buttonSpellings, List.mem_cons, List.not_mem_nil, or_false, Prod.mk.injEq] at hrow
  unfold buttonOfText
  obtain ⟨rfl, rfl, rfl⟩ | ⟨rfl, rfl, rfl⟩ | ⟨rfl, rfl, rfl⟩ | ⟨rfl, rfl, rfl⟩ | ⟨rfl, rfl, rfl⟩ := hrow <;>
    obtain h | h := ht <;> rw [h] <;> exact ⟨_, rfl, rfl⟩

theorem assemble_pressed {t : String} {b : Button} (h : buttonOfText t = some b) :
    assemble "PRESSED" (some t) = some (.pressed b) := by
  simp [assemble, h]

theorem assemble_held {t : String} {b : Button} (h : buttonOfText t = some b) :
    assemble "HELD" (some t) = some (.held b) := by
  simp [assemble, h]

/-- Settles O40: a plain mnemonic's word is evaluated; a button's text names the button whose code is its number. -/
theorem mnemonicsAssembleToTheirWords : Obligations.MnemonicsAssembleToTheirWords := by
  constructor
  · intro m w hrow
    simp only [List.mem_cons, List.not_mem_nil, or_false, Prod.mk.injEq] at hrow
    obtain ⟨rfl, rfl⟩ | ⟨rfl, rfl⟩ | ⟨rfl, rfl⟩ | ⟨rfl, rfl⟩ | ⟨rfl, rfl⟩ | ⟨rfl, rfl⟩ | ⟨rfl, rfl⟩ | ⟨rfl, rfl⟩ |
      ⟨rfl, rfl⟩ | ⟨rfl, rfl⟩ := hrow <;> rfl
  · intro name number k hrow t ht
    have hupper : t.toUpper = name ∨ t.toUpper = number := by
      refine ht.imp_right fun hnumber => ?_
      rw [hnumber]
      exact toUpper_number _ hrow
    obtain ⟨b, hb, rfl⟩ := buttonOfText_of_toUpper hrow hupper
    rw [assemble_pressed hb, assemble_held hb, Option.map_some, Option.map_some, encode_pressed, encode_held]
    exact ⟨rfl, rfl⟩

end Sys2Proof.Proofs
end

section
/-! The six geometry commands against the real-valued pipeline of Safety.lean (40_geometry.md R63 to R84). -/

namespace Sys2Proof.Proofs

open Sys2Proof.Machine Sys2Proof.Safety Sys2Proof.Laws Real

/-! The common precondition, and RAW. -/

/-- Settles O19: before INIT a geometry command has no rule but the refusing one. -/
theorem geometryRefusedBeforeInit : Obligations.GeometryRefusedBeforeInit :=
  fun _ _ hi hinit => exec_of_execRule (.refused hi hinit)

/-- Settles O20: the raw point is the centred sample of the ports. -/
theorem rawAnswersCentredSample : Obligations.RawAnswersCentredSample := by
  intro s hinit
  rw [exec_of_execRule (.raw hinit), rawPoint_x, rawPoint_y]
  simp only [State.writeXY, afterSample, saturates, Bool.or_assoc]
  rfl

/-! The integer root as the floor of the real one (00_scope.md R9). -/

theorem isqrt_ediv_eq_floor_sqrt {n d : ℤ} (hn : 0 ≤ n) (hd : 0 < d) :
    (isqrt (n / d).toNat : ℤ) = ⌊√((n : ℝ) / d)⌋ := by
  have hquot : ((n / d).toNat : ℤ) = n / d := Int.toNat_of_nonneg (Int.ediv_nonneg hn hd.le)
  have hlow : (isqrt (n / d).toNat : ℤ) ^ 2 ≤ n / d := by
    rw [← hquot, isqrt_eq_sqrt]; exact_mod_cast Nat.sqrt_le' _
  have hhigh : n / d < ((isqrt (n / d).toNat : ℤ) + 1) ^ 2 := by
    rw [← hquot, isqrt_eq_sqrt]; exact_mod_cast Nat.lt_succ_sqrt' _
  rw [Int.le_ediv_iff_mul_le hd] at hlow
  rw [Int.ediv_lt_iff_lt_mul hd] at hhigh
  have hdR : (0 : ℝ) < d := by exact_mod_cast hd
  refine (Int.floor_eq_iff.2 ⟨Real.le_sqrt_of_sq_le ?_, (Real.sqrt_lt' ?_).2 ?_⟩).symm
  · rw [le_div_iff₀ hdR]; exact_mod_cast hlow
  · positivity
  · rw [div_lt_iff₀ hdR]; exact_mod_cast hhigh

theorem magnitude_eq_floor_sqrt (v : Point) : (magnitude v : ℤ) = ⌊√((v.x : ℝ) ^ 2 + (v.y : ℝ) ^ 2)⌋ := by
  have h := isqrt_ediv_eq_floor_sqrt (add_nonneg (mul_self_nonneg v.x) (mul_self_nonneg v.y)) one_pos
  rw [Int.ediv_one] at h
  rw [magnitude, h]
  congr 2
  push_cast
  ring

/-! The mapper (R64, R66, R67). -/

theorem truncate_of_nonpos {r : ℝ} (h : r ≤ 0) : truncate r = ⌈r⌉ := by
  rw [truncate]
  split_ifs with h0
  · rw [le_antisymm h h0, Int.floor_zero, Int.ceil_zero]
  · rfl

/-- Truncation toward zero is sign-symmetric (R75). -/
theorem truncate_mul (c : ℤ) {w : ℝ} (hw : 0 ≤ w) : truncate (c * w) = c.sign * ⌊|(c : ℝ)| * w⌋ := by
  rcases lt_trichotomy c 0 with hc | rfl | hc
  · have hcR : (c : ℝ) < 0 := by exact_mod_cast hc
    rw [truncate_of_nonpos (mul_nonpos_of_nonpos_of_nonneg hcR.le hw), Int.sign_eq_neg_one_of_neg hc,
      abs_of_neg hcR, neg_mul (c : ℝ), Int.floor_neg, neg_one_mul, neg_neg]
  · simp [truncate]
  · have hcR : (0 : ℝ) < c := by exact_mod_cast hc
    rw [truncate, if_pos (mul_nonneg hcR.le hw), Int.sign_eq_one_of_pos hc, abs_of_pos hcR, one_mul]

/-- The clamped radicand of R66 in units of `2 * S^2`. -/
theorem max_radicand_div (o : ℤ) :
    ((max (radicand o) 0 : ℤ) : ℝ) / radicandUnit = max 0 (1 - ((o : ℝ) / 65536) ^ 2 / 2) := by
  have hquot : (radicand o : ℝ) / radicandUnit = 1 - ((o : ℝ) / 65536) ^ 2 / 2 := by
    rw [radicand, radicandUnit_eq]; push_cast; ring
  have hunit : (0 : ℝ) ≤ radicandUnit := by rw [radicandUnit_eq]; norm_num
  rw [Int.cast_max, ← max_div_div_right hunit, hquot, Int.cast_zero, zero_div, max_comm]

theorem mapAxis_eq_mappedAxis (c o : ℤ) : mapAxis c o = mappedAxis c o := by
  have hunit : (0 : ℤ) < radicandUnit := by rw [radicandUnit_eq]; norm_num
  have hroot : √(((c * c * max (radicand o) 0 : ℤ) : ℝ) / radicandUnit) =
      |(c : ℝ)| * √(max 0 (1 - ((o : ℝ) / 65536) ^ 2 / 2)) := by
    rw [Int.cast_mul, mul_div_assoc, max_radicand_div, Int.cast_mul, Real.sqrt_mul (mul_self_nonneg _),
      Real.sqrt_mul_self_eq_abs]
  rw [mapAxis, mappedAxis, truncate_mul c (Real.sqrt_nonneg _), ← hroot,
    isqrt_ediv_eq_floor_sqrt (mul_nonneg (mul_self_nonneg c) (le_max_right _ _)) hunit]

theorem squareToCircle_rawPoint (s : State) : squareToCircle (rawPoint s) = ⟨mappedX s, mappedY s⟩ := by
  rw [squareToCircle, rawPoint_x, rawPoint_y, mapAxis_eq_mappedAxis, mapAxis_eq_mappedAxis, mappedX, mappedY]

/-- Settles O21: each mapped axis is the truncated real one. -/
theorem mappedIsTruncatedRealMapping : Obligations.MappedIsTruncatedRealMapping := by
  intro s hinit
  rw [exec_of_execRule (.mapped hinit), squareToCircle_rawPoint]
  rfl

/-! The polar reading (R68 to R71). -/

theorem magnitude_eq_magnitude0 (s : State) : (magnitude ⟨mappedY s, mappedX s⟩ : ℤ) = magnitude0 s := by
  rw [magnitude_eq_floor_sqrt, magnitude0]

/-- Both fields of the reading are those of the real formulas, the noise floor included. -/
theorem reading_eq (s : State) : reading s = ⟨polarMag s, polarAng s⟩ := by
  rw [reading, squareToCircle_rawPoint, polarFrame]
  have hmag := magnitude_eq_magnitude0 s
  rcases polarOf_cases ⟨mappedY s, mappedX s⟩ with ⟨hlt, heq⟩ | ⟨hge, hv, heq⟩
  · have hcentred : Centred s := by rw [Centred]; omega
    rw [heq, polarMag, polarAng, if_pos hcentred, if_pos hcentred]
    rfl
  · have hcentred : ¬Centred s := by rw [Centred]; omega
    rw [heq, polarMag, polarAng, if_neg hcentred, if_neg hcentred, hmag, angleUnitsIsExactFloor _ hv]

/-- Settles O22: both fields are those of the reading. -/
theorem polarIsExactReading : Obligations.PolarIsExactReading := by
  intro s hinit
  rw [exec_of_execRule (.polar hinit), reading_eq]
  rfl

/-- Settles O23: the magnitude is that of the reading. -/
theorem magIsExactMagnitude : Obligations.MagIsExactMagnitude := by
  intro s hinit
  rw [exec_of_execRule (.mag hinit), reading_eq]
  rfl

/-- Settles O24: the angle is that of the reading. -/
theorem angleIsExactCompassAngle : Obligations.AngleIsExactCompassAngle := by
  intro s hinit
  rw [exec_of_execRule (.angle hinit), reading_eq]
  rfl

/-! The direction (R72): the boundaries are integers in units of 2^-16 degree, so the floor of an angle is below one
exactly when the angle is (R74). -/

theorem floor_units_lt {c : ℝ} {k : ℤ} : ⌊c * 65536⌋ < k ↔ c < k / 65536 := by
  rw [Int.floor_lt, lt_div_iff₀ (by norm_num)]

theorem discretize_floor {c : ℝ} (hc : 0 ≤ c) :
    (discretize ⌊c * 65536⌋).code =
      if c < 22.5 then 1 else if c < 67.5 then 2 else if c < 112.5 then 3 else if c < 157.5 then 4
      else if c < 202.5 then 5 else if c < 247.5 then 6 else if c < 292.5 then 7 else if c < 337.5 then 8 else 1 := by
  have hnonneg : ¬⌊c * 65536⌋ < 0 := not_lt.2 (Int.floor_nonneg.2 (by positivity))
  rw [discretize, if_neg hnonneg]
  simp only [floor_units_lt, apply_ite Direction.code]
  norm_num [Direction.code]

theorem directionCode_eq (s : State) : (discretize (polarAng s)).code = directionCode s := by
  rw [polarAng, directionCode]
  by_cases hcentred : Centred s
  · rw [if_pos hcentred, if_pos hcentred]; rfl
  · rw [if_neg hcentred, if_neg hcentred]; exact discretize_floor (compassDegrees_nonneg _ _)

/-- Settles O25: the discretizer on the floor of the angle finds the sector of the angle. -/
theorem dirIsExactSector : Obligations.DirIsExactSector := by
  intro s hinit
  rw [exec_of_execRule (.dir hinit), reading_eq, directionCode_eq]
  rfl

end Sys2Proof.Proofs
end

section
/-! The pipeline's stages on their own: the mapper (40_geometry.md R66, R67, R75), the noise floor (R70, R76) and the
readings where a radicand is clamped. -/

namespace Sys2Proof.Proofs

open Sys2Proof.Machine Sys2Proof.Safety Sys2Proof.Laws

/-! The mapper. -/

/-- R66: 92681 is the greatest c with `c * c <= 2 * S^2`. -/
theorem radicand_neg_iff_natAbs (c : ℤ) : radicand c < 0 ↔ 92682 ≤ c.natAbs := by
  rw [radicand_neg_iff, ← Int.natAbs_sq c]
  norm_cast
  constructor <;> intro h
  · by_contra hc
    have : c.natAbs ^ 2 ≤ 92681 ^ 2 := Nat.pow_le_pow_left (by omega) 2
    omega
  · have : 92682 ^ 2 ≤ c.natAbs ^ 2 := Nat.pow_le_pow_left h 2
    omega

/-- Settles O28: either radicand is negative from its axis's bound on. -/
theorem domainErrorBound : Obligations.DomainErrorBound := by
  intro p
  rw [domainError, Bool.or_eq_true, decide_eq_true_iff, decide_eq_true_iff, radicand_neg_iff_natAbs,
    radicand_neg_iff_natAbs, or_comm]

theorem mapAxis_neg (c o : ℤ) : mapAxis (-c) o = -mapAxis c o := by
  rw [mapAxis, mapAxis, Int.sign_neg, neg_mul_neg, neg_mul]

theorem mapAxis_neg_other (c o : ℤ) : mapAxis c (-o) = mapAxis c o := by
  rw [mapAxis, mapAxis, radicand, radicand, neg_mul_neg]

theorem mapAxis_eq_zero {c o : ℤ} (h : c = 0 ∨ radicand o ≤ 0) : mapAxis c o = 0 := by
  rcases h with rfl | hrad
  · rw [mapAxis, Int.sign_zero, zero_mul]
  · rw [mapAxis, max_eq_right hrad, mul_zero, Int.zero_ediv, Int.toNat_zero, isqrt_zero, Nat.cast_zero, mul_zero]

/-- Settles O30: the product of (2, 92680) is `4 * 352192`, less than one unit. -/
theorem mappedAxisZeroCases : Obligations.MappedAxisZeroCases :=
  ⟨fun _ _ => mapAxis_eq_zero, by decide, by decide⟩

/-- R75 (d): `x'^2 + y'^2 = x^2 + y^2 - x^2*y^2 <= 1` in the unit square, where no radicand is clamped. -/
theorem squareToCircle_mem_disk {p : Point} (hx : p.x.natAbs ≤ 65536) (hy : p.y.natAbs ≤ 65536) :
    (squareToCircle p).x ^ 2 + (squareToCircle p).y ^ 2 ≤ 65536 ^ 2 := by
  have hxm := mapAxis_sq_le p.x p.y
  have hym := mapAxis_sq_le p.y p.x
  have hx2 : p.x * p.x ≤ 65536 ^ 2 := (Int.natAbs_le_iff_mul_self_le (b := 65536)).1 hx
  have hy2 : p.y * p.y ≤ 65536 ^ 2 := (Int.natAbs_le_iff_mul_self_le (b := 65536)).1 hy
  simp only [squareToCircle, pow_two (mapAxis _ _)]
  rw [radicand, radicandUnit_eq, max_eq_left (by linarith)] at hxm hym
  nlinarith [mul_nonneg (sub_nonneg.2 hx2) (sub_nonneg.2 hy2)]

/-- Settles O29, axis by axis. -/
theorem mapperProperties : Obligations.MapperProperties := by
  refine ⟨fun x y => ?_, fun p => ⟨mapAxis_natAbs_le _ _, mapAxis_natAbs_le _ _⟩,
    fun _ hx hy => squareToCircle_mem_disk hx hy, ?_⟩
  · simp only [squareToCircle, mapAxis_neg, mapAxis_neg_other, and_self]
  · simp only [squareToCircle, mapAxis_eq_zero (.inl rfl)]

/-! The noise floor. -/

theorem polarOf_of_lt {v : Point} (h : magnitude v ≤ 6553) : polarOf v = sentinel := by
  rcases polarOf_cases v with ⟨-, heq⟩ | ⟨hge, -, -⟩
  · exact heq
  · omega

theorem polarOf_of_ge {v : Point} (h : 6554 ≤ magnitude v) : polarOf v = ⟨magnitude v, angleUnits v⟩ := by
  rcases polarOf_cases v with ⟨hlt, -⟩ | ⟨-, -, heq⟩
  · omega
  · exact heq

/-- Settles O31: ten times 6553 is below 65536, and ten times 6554 is not. -/
theorem noiseFloorSplitsReadings : Obligations.NoiseFloorSplitsReadings := by
  refine fun v => ⟨polarOf_of_lt, fun h => ?_⟩
  have hlt : angleUnits v < 23592960 := angleUnits_lt (ne_zero_of_magnitude (by omega))
  rw [polarOf_of_ge h]
  exact ⟨rfl, Int.natCast_nonneg _, Int.ofNat_lt.2 hlt⟩

/-! The quadrants: the angle of a vector is that of the vector turned back into the first quadrant, and 90 degrees for
each quarter turn. -/

theorem ne_zero_iff {v : Point} : v ≠ ⟨0, 0⟩ ↔ ¬(v.x = 0 ∧ v.y = 0) := by
  cases v
  simp

theorem quadrant_mem {v : Point} (h : v ≠ ⟨0, 0⟩) :
    (quadrant v).1 < 4 ∧ 0 < (quadrant v).2.x ∧ 0 ≤ (quadrant v).2.y := by
  have hne := ne_zero_iff.1 h
  simp only [quadrant]
  split_ifs <;> simp only <;> omega

theorem quadrant_of_mem {z : Point} (hx : 0 < z.x) (hy : 0 ≤ z.y) : quadrant z = (0, z) :=
  if_pos ⟨hx, hy⟩

theorem angleUnits_eq_quadrant {v : Point} (h : v ≠ ⟨0, 0⟩) :
    angleUnits v = (quadrant v).1 * 5898240 + angleUnits (quadrant v).2 := by
  obtain ⟨-, hx, hy⟩ := quadrant_mem h
  simp only [angleUnits, quadrant_of_mem hx hy, zero_mul, zero_add]
  rfl

/-! The axes. -/

/-- The polar frame's x axis points north. -/
theorem angleUnits_north {m : ℤ} (h : 0 < m) : angleUnits ⟨m, 0⟩ = 0 := by
  have hturn : AtTurn ⟨m, 0⟩ 0 := ⟨m, by exact_mod_cast h, by simp, by simp⟩
  have hfloor := angleUnits_spec hturn le_rfl one_pos
  rwa [mul_zero, Int.floor_zero, Int.natCast_eq_zero] at hfloor

/-- The angle of a vector on an axis is a whole number of quarter turns. -/
theorem angleUnits_axis {v : Point} (h : v ≠ ⟨0, 0⟩) (haxis : v.x = 0 ∨ v.y = 0) :
    angleUnits v ∈ [0, 90 * 65536, 180 * 65536, 270 * 65536] := by
  obtain ⟨hlt, hx, -⟩ := quadrant_mem h
  have hy : (quadrant v).2.y = 0 := by
    simp only [quadrant]
    split_ifs <;> simp only <;> omega
  have hz : angleUnits (quadrant v).2 = 0 := by
    rw [← angleUnits_north hx, ← hy]
  rw [angleUnits_eq_quadrant h, hz]
  interval_cases (quadrant v).1 <;> decide

/-- Settles O32: the clamped radicand makes the other axis 0. -/
theorem domainErrorAnglesAreAxes : Obligations.DomainErrorAnglesAreAxes := by
  intro p hp
  have haxis : (polarFrame (squareToCircle p)).x = 0 ∨ (polarFrame (squareToCircle p)).y = 0 := by
    rw [domainError, Bool.or_eq_true, decide_eq_true_iff, decide_eq_true_iff] at hp
    exact hp.symm.imp (fun hr => mapAxis_eq_zero (.inr hr.le)) (fun hr => mapAxis_eq_zero (.inr hr.le))
  rcases polarOf_cases (polarFrame (squareToCircle p)) with ⟨-, heq⟩ | ⟨-, hv, heq⟩ <;> rw [heq]
  · exact List.mem_cons_self
  · have := angleUnits_axis hv haxis
    simp only [List.mem_cons, List.not_mem_nil, or_false] at this ⊢
    omega

end Sys2Proof.Proofs
end

section
/-! The discretizer and the integer-only sector test agree (40_geometry.md R72, R74), and the reflections of a reading's
direction (R89). -/

namespace Sys2Proof.Proofs

open Sys2Proof.Machine Sys2Proof.Safety Sys2Proof.Laws Real

/-! No lattice point lies on a sector boundary, because the root of 2 is irrational (R74). -/

theorem sq_ne_two_mul_sq (a : ℤ) {b : ℤ} (hb : b ≠ 0) : a ^ 2 ≠ 2 * b ^ 2 := by
  intro h
  have hbR : (b : ℝ) ^ 2 ≠ 0 := by exact_mod_cast pow_ne_zero 2 hb
  have hsq : ((a : ℝ) / b) ^ 2 = 2 := by
    rw [div_pow, div_eq_iff hbR]; exact_mod_cast h
  refine irrational_sqrt_two ⟨|(a : ℚ) / b|, ?_⟩
  push_cast
  rw [← hsq, Real.sqrt_sq_eq_abs]

/-! The boundaries of the first quadrant, 22.5 and 67.5 degrees. The square of a vector at `t` turns stands at `2 * t`
turns; turned by an eighth, it crosses the x axis where `t` is 1/16 or 3/16, and its y is the difference that R74
tests. -/

theorem atTurn_eighth : AtTurn ⟨1, 1⟩ (1 / 8) := by
  have hangle : 2 * π * (1 / 8) = π / 4 := by ring
  refine ⟨√2, by positivity, ?_, ?_⟩ <;> rw [hangle] <;> simp [← mul_div_assoc]

theorem atTurn_neg_eighth : AtTurn ⟨1, -1⟩ (-1 / 8) := by
  have hangle : 2 * π * (-1 / 8) = -(π / 4) := by ring
  refine ⟨√2, by positivity, ?_, ?_⟩ <;> rw [hangle] <;> simp [← mul_div_assoc]

theorem upper_iff_of_y_ne_zero {v : Point} (h : v.y ≠ 0) : v.upper = true ↔ 0 < v.y := by
  simp [Point.upper, h]

/-- For a vector at `t` turns in the first quadrant, R74's test for N is `t < 1/16`. -/
theorem lt_sixteenth_iff {z : Point} {t : ℝ} (h : AtTurn z t) (h0 : 0 ≤ t) (h1 : t < 1 / 4) (hx : z.x ≠ 0) :
    t < 1 / 16 ↔ (z.x + z.y) ^ 2 < 2 * z.x ^ 2 := by
  have hy : ((z.mul z).mul ⟨1, -1⟩).y = (z.x + z.y) ^ 2 - 2 * z.x ^ 2 := by simp only [Point.mul]; ring
  have hne : (z.x + z.y) ^ 2 ≠ 2 * z.x ^ 2 := sq_ne_two_mul_sq _ hx
  have hupper := ((h.mul h).mul atTurn_neg_eighth).upper_iff
  rw [upper_iff_of_y_ne_zero (by rw [hy]; exact sub_ne_zero.2 hne), hy, sub_pos] at hupper
  have hfract : Int.fract (t + t + -1 / 8) < 1 / 2 ↔ 1 / 16 ≤ t := by
    by_cases ht : 1 / 16 ≤ t
    · rw [Int.fract_eq_self.2 ⟨by linarith, by linarith⟩]
      exact iff_of_true (by linarith) ht
    · rw [← Int.fract_add_one, Int.fract_eq_self.2 ⟨by linarith, by linarith⟩]
      exact iff_of_false (by linarith) ht
  rw [← not_le, ← hfract, ← hupper, not_lt, hne.le_iff_lt]

/-- For a vector at `t` turns in the first quadrant, R74's test for E fails exactly where `t < 3/16`. -/
theorem lt_three_sixteenths_iff {z : Point} {t : ℝ} (h : AtTurn z t) (h0 : 0 ≤ t) (h1 : t < 1 / 4) (hx : z.x ≠ 0) :
    t < 3 / 16 ↔ ¬(z.x + z.y) ^ 2 < 2 * z.y ^ 2 := by
  have hy : ((z.mul z).mul ⟨1, 1⟩).y = (z.x + z.y) ^ 2 - 2 * z.y ^ 2 := by simp only [Point.mul]; ring
  have hne : (z.x + z.y) ^ 2 ≠ 2 * z.y ^ 2 := by
    by_cases hzero : z.y = 0
    · simpa [hzero] using hx
    · exact sq_ne_two_mul_sq _ hzero
  have hupper := ((h.mul h).mul atTurn_eighth).upper_iff
  rw [upper_iff_of_y_ne_zero (by rw [hy]; exact sub_ne_zero.2 hne), hy, sub_pos,
    Int.fract_eq_self.2 ⟨by linarith, by linarith⟩] at hupper
  rw [not_lt, hne.symm.le_iff_lt, hupper]
  constructor <;> intro ht <;> linarith

/-! Both forms, one quarter turn at a time. -/

/-- The directions clockwise from north, in steps of 45 degrees. -/
def compassPoint : ℕ → Direction
  | 1 => .northEast
  | 2 => .east
  | 3 => .southEast
  | 4 => .south
  | 5 => .southWest
  | 6 => .west
  | 7 => .northWest
  | _ => .north

/-- R72's boundaries are the odd multiples of 22.5 degrees. -/
theorem discretize_eq_compassPoint {a : ℤ} {k : ℕ} (hk : k ≤ 8) (h0 : 0 ≤ a) (hlow : (2 * k - 1) * 1474560 ≤ a)
    (hhigh : a < (2 * k + 1) * 1474560) : discretize a = compassPoint k := by
  interval_cases k <;> simp (disch := omega) only [discretize, if_pos, if_neg, compassPoint]

theorem discretize_quadrant {q a : ℕ} (hq : q < 4) (ha : a < 5898240) :
    discretize ((q * 5898240 + a : ℕ) : ℤ) =
      compassPoint (2 * q + if a < 1474560 then 0 else if a < 4423680 then 1 else 2) := by
  split_ifs <;> apply discretize_eq_compassPoint <;> omega

/-- R74's test for N and S: the vector is within 22.5 degrees of the x axis. -/
abbrev AlongX (v : Point) : Prop := ((v.x.natAbs : ℤ) + v.y.natAbs) ^ 2 < 2 * (v.x.natAbs : ℤ) ^ 2

/-- R74's test for E and W: the vector is within 22.5 degrees of the y axis. -/
abbrev AlongY (v : Point) : Prop := ((v.x.natAbs : ℤ) + v.y.natAbs) ^ 2 < 2 * (v.y.natAbs : ℤ) ^ 2

/-- The tests see the lengths of the components only. -/
theorem along_congr {v w : Point} (hx : w.x.natAbs = v.x.natAbs) (hy : w.y.natAbs = v.y.natAbs) :
    (AlongX w ↔ AlongX v) ∧ (AlongY w ↔ AlongY v) := by
  simp only [AlongX, AlongY, hx, hy, and_self]

/-- Swapping the components swaps the tests. -/
theorem along_swap {v w : Point} (hx : w.x.natAbs = v.y.natAbs) (hy : w.y.natAbs = v.x.natAbs) :
    (AlongX w ↔ AlongY v) ∧ (AlongY w ↔ AlongX v) := by
  simp only [AlongX, AlongY, hx, hy, add_comm (v.y.natAbs : ℤ), and_self]

theorem AlongX.x_ne_zero {v : Point} (h : AlongX v) : v.x ≠ 0 := by
  intro hx
  simp only [AlongX, hx, Int.natAbs_zero, Nat.cast_zero, zero_add] at h
  linarith [sq_nonneg (v.y.natAbs : ℤ)]

theorem alongX_or_y_ne_zero {v : Point} (hv : v ≠ ⟨0, 0⟩) : AlongX v ∨ v.y ≠ 0 := by
  refine (eq_or_ne v.y 0).imp_left fun hy => ?_
  have hx : v.x ≠ 0 := fun hx => ne_zero_iff.1 hv ⟨hx, hy⟩
  have : 0 < (v.x.natAbs : ℤ) ^ 2 := by positivity
  simp only [AlongX, hy, Int.natAbs_zero, Nat.cast_zero, add_zero]
  linarith

theorem alongY_or_x_ne_zero {v : Point} (hv : v ≠ ⟨0, 0⟩) : AlongY v ∨ v.x ≠ 0 := by
  have hswap : (⟨v.y, v.x⟩ : Point) ≠ ⟨0, 0⟩ := ne_zero_iff.2 fun h => ne_zero_iff.1 hv h.symm
  exact (alongX_or_y_ne_zero hswap).imp_left (along_swap rfl rfl).1.1

theorem AlongX.not_alongY {v : Point} (h : AlongX v) : ¬AlongY v := by
  intro h'
  have : (0 : ℤ) ≤ v.x.natAbs * v.y.natAbs := by positivity
  simp only [AlongX, AlongY] at h h'
  linarith [add_sq (v.x.natAbs : ℤ) v.y.natAbs]

/-- R74's test, the axis first and the signs second. -/
theorem sector_of_ne_zero {v : Point} (hv : v ≠ ⟨0, 0⟩) :
    sector v =
      if AlongX v then (if 0 < v.x then .north else .south)
      else if AlongY v then (if 0 < v.y then .east else .west)
      else if 0 < v.x then (if 0 < v.y then .northEast else .northWest)
      else if 0 < v.y then .southEast else .southWest := by
  have hx := alongY_or_x_ne_zero hv
  have hy := alongX_or_y_ne_zero hv
  have hsector : sector v =
      if 0 < v.x ∧ AlongX v then .north else if 0 < v.y ∧ AlongY v then .east
      else if v.x < 0 ∧ AlongX v then .south else if v.y < 0 ∧ AlongY v then .west
      else if 0 < v.x ∧ 0 < v.y then .northEast else if v.x < 0 ∧ 0 < v.y then .southEast
      else if v.x < 0 ∧ v.y < 0 then .southWest else .northWest := by
    simp only [sector, add_comm (v.y.natAbs : ℤ)]
  rw [hsector]
  by_cases hX : AlongX v
  · have hx := hX.x_ne_zero
    simp only [hX, hX.not_alongY, and_true, and_false, if_true, if_false]
    split_ifs <;> first | rfl | omega
  by_cases hY : AlongY v
  · simp only [hX, hY, and_true, and_false, if_true, if_false]
    split_ifs <;> first | rfl | omega
  · simp only [hX, hY, and_false, if_false]
    split_ifs <;> first | rfl | omega

/-- What the quarter turns back leave of the tests: the vector's own, swapped by an odd number of them. -/
theorem quadrant_cases {v : Point} (hv : v ≠ ⟨0, 0⟩) :
    ((quadrant v).1 = 0 ∧ 0 < v.x ∧ 0 ≤ v.y ∨ (quadrant v).1 = 2 ∧ v.x < 0 ∧ v.y ≤ 0) ∧
        (AlongX (quadrant v).2 ↔ AlongX v) ∧ (AlongY (quadrant v).2 ↔ AlongY v) ∨
      ((quadrant v).1 = 1 ∧ v.x ≤ 0 ∧ 0 < v.y ∨ (quadrant v).1 = 3 ∧ 0 ≤ v.x ∧ v.y < 0) ∧
        (AlongX (quadrant v).2 ↔ AlongY v) ∧ (AlongY (quadrant v).2 ↔ AlongX v) := by
  have hne := ne_zero_iff.1 hv
  unfold quadrant
  split_ifs with q0 q1 q2
  · exact .inl ⟨.inl ⟨rfl, q0⟩, along_congr rfl rfl⟩
  · exact .inr ⟨.inl ⟨rfl, q1⟩, along_swap rfl (Int.natAbs_neg _)⟩
  · exact .inl ⟨.inr ⟨rfl, q2⟩, along_congr (Int.natAbs_neg _) (Int.natAbs_neg _)⟩
  · exact .inr ⟨.inr ⟨rfl, by omega⟩, along_swap (Int.natAbs_neg _) rfl⟩

/-- R74's test on a vector is that on the vector turned back into the first quadrant, two directions a quarter turn. -/
theorem sector_quadrant {v : Point} (hv : v ≠ ⟨0, 0⟩) :
    sector v =
      compassPoint (2 * (quadrant v).1 +
        if AlongX (quadrant v).2 then 0 else if ¬AlongY (quadrant v).2 then 1 else 2) := by
  have hx := alongY_or_x_ne_zero hv
  have hy := alongX_or_y_ne_zero hv
  have hXY := AlongX.not_alongY (v := v)
  rw [sector_of_ne_zero hv]
  obtain ⟨hq, hX', hY'⟩ | ⟨hq, hX', hY'⟩ := quadrant_cases hv
  all_goals
    simp only [hX', hY']
    obtain ⟨hq, hsx, hsy⟩ | ⟨hq, hsx, hsy⟩ := hq
    all_goals
      rw [hq]
      split_ifs <;> first | rfl | omega

/-- The angle of a first-quadrant vector against the two boundaries. -/
theorem angleUnits_firstQuadrant {z : Point} (hx : 0 < z.x) (hy : 0 ≤ z.y) :
    angleUnits z < 5898240 ∧ (angleUnits z < 1474560 ↔ AlongX z) ∧ (angleUnits z < 4423680 ↔ ¬AlongY z) := by
  obtain ⟨t, h0, h1, ht⟩ := exists_atTurn (v := z) (by rintro rfl; exact lt_irrefl _ hx)
  obtain ⟨-, -, hquarter⟩ := quadrant_spec ht h0 h1
  rw [quadrant_of_mem hx hy, Nat.cast_zero, zero_div, sub_zero] at hquarter
  have hunits : ∀ k : ℕ, angleUnits z < k ↔ t < k / 23592960 := by
    intro k
    rw [← Int.ofNat_lt, angleUnits_spec ht h0 h1, Int.floor_lt, lt_div_iff₀' (by norm_num), Int.cast_natCast]
  have hX : t < 1 / 16 ↔ AlongX z := by
    rw [lt_sixteenth_iff ht h0 hquarter hx.ne', AlongX, Int.natAbs_of_nonneg hx.le, Int.natAbs_of_nonneg hy]
  have hY : t < 3 / 16 ↔ ¬AlongY z := by
    rw [lt_three_sixteenths_iff ht h0 hquarter hx.ne', AlongY, Int.natAbs_of_nonneg hx.le, Int.natAbs_of_nonneg hy]
  rw [← hX, ← hY, hunits, hunits, hunits]
  exact ⟨hquarter.trans_eq (by norm_num), by norm_num, by norm_num⟩

/-- Settles O27: the angle and the sector of a vector are both those of the vector turned back into the first quadrant,
where the boundaries of the angle are those of R74's tests. -/
theorem discretizerAgreesWithSector : Obligations.DiscretizerAgreesWithSector := by
  intro v hv
  obtain ⟨hq, hx, hy⟩ := quadrant_mem hv
  obtain ⟨hlt, hnorth, heast⟩ := angleUnits_firstQuadrant hx hy
  rw [angleUnits_eq_quadrant hv, discretize_quadrant hq hlt, sector_quadrant hv]
  simp only [hnorth, heast]

/-! The reflections of R89. -/

/-- East and west swapped. -/
def eastWest : Direction → Direction
  | .northEast => .northWest
  | .east => .west
  | .southEast => .southWest
  | .southWest => .southEast
  | .west => .east
  | .northWest => .northEast
  | d => d

/-- North and south swapped. -/
def northSouth : Direction → Direction
  | .north => .south
  | .northEast => .southEast
  | .southEast => .northEast
  | .south => .north
  | .southWest => .northWest
  | .northWest => .southWest
  | d => d

theorem sector_neg_y {v w : Point} (hv : v ≠ ⟨0, 0⟩) (hwx : w.x = v.x) (hwy : w.y = -v.y) :
    sector w = eastWest (sector v) := by
  have hw : w ≠ ⟨0, 0⟩ := by have := ne_zero_iff.1 hv; rw [ne_zero_iff]; omega
  obtain ⟨hX, hY⟩ := along_congr (v := v) (w := w) (by rw [hwx]) (by rw [hwy, Int.natAbs_neg])
  have hy := alongX_or_y_ne_zero hv
  simp only [sector_of_ne_zero hw, sector_of_ne_zero hv, hX, hY, hwx, hwy]
  split_ifs <;> first | rfl | omega

theorem sector_neg_x {v w : Point} (hv : v ≠ ⟨0, 0⟩) (hwx : w.x = -v.x) (hwy : w.y = v.y) :
    sector w = northSouth (sector v) := by
  have hw : w ≠ ⟨0, 0⟩ := by have := ne_zero_iff.1 hv; rw [ne_zero_iff]; omega
  obtain ⟨hX, hY⟩ := along_congr (v := v) (w := w) (by rw [hwx, Int.natAbs_neg]) (by rw [hwy])
  have hx := alongY_or_x_ne_zero hv
  have hx' := AlongX.x_ne_zero (v := v)
  simp only [sector_of_ne_zero hw, sector_of_ne_zero hv, hX, hY, hwx, hwy]
  split_ifs <;> first | rfl | omega

theorem eastWest_codes (d : Direction) : (d.code.toNat, (eastWest d).code.toNat) ∈
    [(0, 0), (1, 1), (2, 8), (3, 7), (4, 6), (5, 5), (6, 4), (7, 3), (8, 2)] := by
  cases d <;> decide

theorem northSouth_codes (d : Direction) : (d.code.toNat, (northSouth d).code.toNat) ∈
    [(0, 0), (1, 5), (2, 4), (3, 3), (4, 2), (5, 1), (6, 8), (7, 7), (8, 6)] := by
  cases d <;> decide

/-- The magnitude, and with it the noise floor, sees the lengths of the components only. -/
theorem magnitude_congr {v w : Point} (hx : w.x.natAbs = v.x.natAbs) (hy : w.y.natAbs = v.y.natAbs) :
    magnitude w = magnitude v := by
  rw [magnitude, magnitude, Int.natAbs_eq_iff_mul_self_eq.1 hx, Int.natAbs_eq_iff_mul_self_eq.1 hy]

/-- A change of sign moves the direction of a reading as it moves the sector, and leaves the magnitude. -/
theorem polarOf_reflect {v w : Point} {f : Direction → Direction} (hx : w.x.natAbs = v.x.natAbs)
    (hy : w.y.natAbs = v.y.natAbs) (hf : v ≠ ⟨0, 0⟩ → sector w = f (sector v)) (hcentre : f .centre = .centre) :
    discretize (polarOf w).ang = f (discretize (polarOf v).ang) ∧ (polarOf w).mag = (polarOf v).mag := by
  have hmag : magnitude w = magnitude v := magnitude_congr hx hy
  rcases polarOf_cases v with ⟨hlt, hv⟩ | ⟨hge, hne, hv⟩
  · rw [hv, polarOf_of_lt (by omega)]
    exact ⟨hcentre.symm, rfl⟩
  · have hnw : w ≠ ⟨0, 0⟩ := ne_zero_of_magnitude (by omega)
    rw [hv, polarOf_of_ge (by omega), hmag]
    exact ⟨by rw [discretizerAgreesWithSector v hne, discretizerAgreesWithSector w hnw, hf hne], rfl⟩

/-- Settles O33: in the polar frame the mapped x is the vector's y, and the mapped y its x. -/
theorem directionSymmetry : Obligations.DirectionSymmetry := by
  intro xm ym
  obtain ⟨hdirX, hmagX⟩ := polarOf_reflect (v := polarFrame ⟨xm, ym⟩) (w := polarFrame ⟨-xm, ym⟩)
    rfl (Int.natAbs_neg _) (fun hv => sector_neg_y hv rfl rfl) rfl
  obtain ⟨hdirY, hmagY⟩ := polarOf_reflect (v := polarFrame ⟨xm, ym⟩) (w := polarFrame ⟨xm, -ym⟩)
    (Int.natAbs_neg _) rfl (fun hv => sector_neg_x hv rfl rfl) rfl
  refine ⟨?_, ?_, hmagX, hmagY⟩
  · simp only [hdirX]; exact eastWest_codes _
  · simp only [hdirY]; exact northSouth_codes _

end Sys2Proof.Proofs
end

section
/-! What the geometry commands read (40_geometry.md R85, R88), and what every step keeps before the first INIT (R78,
R92, R127). -/

namespace Sys2Proof.Proofs

open Sys2Proof.Machine Sys2Proof.Safety Sys2Proof.Laws

/-! The inputs of a geometry command. -/

/-- STATUS, the ports and the origin of a state, everything else at its reset value. -/
def inputsOnly (s : State) : State :=
  { State.reset with status := s.status, ainH := s.ainH, ainV := s.ainV, calX0 := s.calX0, calY0 := s.calY0 }

/-- Two next states of a geometry command agree on STATUS and on the result registers that the command writes. -/
structure SameResults (i : Instr) (t u : State) : Prop where
  status : t.status = u.status
  xy : i ∈ [Instr.raw, .mapped] → t.resX = u.resX ∧ t.resY = u.resY
  mag : i ∈ [Instr.polar, .mag] → t.resMag = u.resMag
  ang : i ∈ [Instr.polar, .angle] → t.resAng = u.resAng
  dir : i = .dir → t.resDir = u.resDir

theorem SameResults.of_common {i : Instr} {t t' u : State} (h : SameResults i t u) (h' : SameResults i t' u) :
    SameResults i t t' where
  status := h.status.trans h'.status.symm
  xy hi := ⟨(h.xy hi).1.trans (h'.xy hi).1.symm, (h.xy hi).2.trans (h'.xy hi).2.symm⟩
  mag hi := (h.mag hi).trans (h'.mag hi).symm
  ang hi := (h.ang hi).trans (h'.ang hi).symm
  dir hi := (h.dir hi).trans (h'.dir hi).symm

/-- A geometry command does the same from its inputs alone. -/
theorem ExecRule.exists_inputsOnly {s t : State} {i : Instr} (h : ExecRule s i t) (hi : i ∈ geometryCommands)
    (hinit : s.status.init = true) : ∃ u, ExecRule (inputsOnly s) i u ∧ SameResults i t u := by
  cases h with
  | refused _ hnot => simp [hinit] at hnot
  | raw => exact ⟨_, .raw hinit, rfl, fun _ => ⟨rfl, rfl⟩, by simp, by simp, by simp⟩
  | mapped => exact ⟨_, .mapped hinit, rfl, fun _ => ⟨rfl, rfl⟩, by simp, by simp, by simp⟩
  | polar => exact ⟨_, .polar hinit, rfl, by simp, fun _ => rfl, fun _ => rfl, by simp⟩
  | mag => exact ⟨_, .mag hinit, rfl, by simp, fun _ => rfl, by simp, by simp⟩
  | angle => exact ⟨_, .angle hinit, rfl, by simp, by simp, fun _ => rfl, by simp⟩
  | dir => exact ⟨_, .dir hinit, rfl, by simp, by simp, by simp, fun _ => rfl⟩
  | nop | init | clrerr | resetall => simp at hi
  | pressed b | held b => cases b <;> simp [Instr.pressed, Instr.held] at hi

/-- Settles O50: both runs have the results of the one run from the inputs alone. -/
theorem geometryDependsOnSampleAndOrigin : Obligations.GeometryDependsOnSampleAndOrigin := by
  intro s s' t t' hstatus hH hV hX hY hinit
  have hinputs : inputsOnly s = inputsOnly s' := by simp only [inputsOnly, hstatus, hH, hV, hX, hY]
  have hsame : ∀ i ∈ geometryCommands, exec i s = .next t → exec i s' = .next t' →
      SameResults i t t' := by
    intro i hi h h'
    obtain ⟨u, hu, hut⟩ := (exec_iff.1 h).exists_inputsOnly hi hinit
    obtain ⟨u', hu', hut'⟩ := (exec_iff.1 h').exists_inputsOnly hi (hstatus ▸ hinit)
    have huu : u = u' := by
      rw [← hinputs] at hu'
      exact Host.Outcome.next.inj ((exec_iff.2 hu).symm.trans (exec_iff.2 hu'))
    exact hut.of_common (huu ▸ hut')
  refine ⟨fun i hi h h' => (hsame i hi h h').status, fun i hi h h' => (hsame i ?_ h h').xy hi,
    fun i hi h h' => (hsame i ?_ h h').mag hi, fun i hi h h' => (hsame i ?_ h h').ang hi,
    fun h h' => (hsame .dir (by decide) h h').dir rfl⟩
  · exact (by decide : [Instr.raw, .mapped] ⊆ geometryCommands) hi
  · exact (by decide : [Instr.polar, .mag] ⊆ geometryCommands) hi
  · exact (by decide : [Instr.polar, .angle] ⊆ geometryCommands) hi

/-! Before the first INIT. -/

theorem setLine_zero_false (b : Button) : setLine 0 b false = 0 := by cases b <;> rfl

/-- The only command that ends with STATUS.INIT 0 and writes a latch writes a 0. -/
theorem ExecRule.untouchedBeforeInit {s t : State} {i : Instr} (h : ExecRule s i t) (hs : UntouchedBeforeInit s) :
    UntouchedBeforeInit t := by
  cases h with
  | raw hinit | mapped hinit | polar hinit | mag hinit | angle hinit | dir hinit =>
    intro ht
    exact absurd (hinit.symm.trans ht) (by decide)
  | init => intro ht; cases ht
  | refused | nop | held => exact hs
  | clrerr =>
    intro ht
    obtain ⟨hlatch, hcalX, hcalY, hx, hy, hmag, hang, hdir, -, -⟩ := hs ht
    exact ⟨hlatch, hcalX, hcalY, hx, hy, hmag, hang, hdir, rfl, rfl⟩
  | resetall => exact fun ht => ⟨rfl, (hs ht).2⟩
  | pressed b =>
    intro ht
    obtain ⟨hlatch, hrest⟩ := hs ht
    exact ⟨by rw [pressed_latch, hlatch, setLine_zero_false], hrest⟩

/-- Settles O52: an unarmed edge sets no latch, RESET sets every register to 0, and no other step but a command writes
what the rule names. -/
theorem stepKeepsUntouchedBeforeInit : Obligations.StepKeepsUntouchedBeforeInit := by
  intro s t hs h
  cases stepRule_of_step h with
  | command _ hrun => exact hrun.untouchedBeforeInit hs
  | @pin rest b l =>
    intro ht
    have hinit : s.status.init = false := by rwa [pinStep_eq] at ht
    simpa [pinStep_eq, hinit] using hs hinit
  | reset => exact fun _ => ⟨rfl, rfl, rfl, rfl, rfl, rfl, rfl, rfl, rfl, rfl⟩
  | answer | illegal | analog => exact hs

end Sys2Proof.Proofs
end

section
/-! The buttons (41_buttons.md): what PIN does to LEVEL and LATCH (R91, R92, R94), the button commands (R95 to R97), a
command and an edge in one clock cycle (R99; 42_control.md R103), and the latch that waits for an edge over a run of
steps (R92, R95, R100). -/

namespace Sys2Proof.Proofs

open Sys2Proof.Machine Sys2Proof.Safety Sys2Proof.Laws

/-! The latch that waits for an edge. -/

/-- A button's bit written with its own value. -/
theorem setLine_self {v : Lines} {b : Button} {l : Bool} (h : lineBit v b = l) : setLine v b l = v :=
  lines_ext fun c => by
    rw [lineBit_setLine]
    split
    · next hbc => rw [← hbc, h]
    · rfl

/-- R95 where there is nothing to consume: the latch stays as it is. -/
theorem pressed_of_not_latched {b : Button} {s : State} (h : lineBit s.latch b = false) :
    pressed b s = { s with resBit := 0 } := by
  have hbit : (pressed b s).resBit = 0 := by rw [pressed_resBit, h]; rfl
  have hlatch : (pressed b s).latch = s.latch := by rw [pressed_latch, setLine_self h]
  calc pressed b s = { s with resBit := (pressed b s).resBit, latch := (pressed b s).latch } := rfl
    _ = { s with resBit := 0 } := by rw [hbit, hlatch]

/-- The next step of `s` is no armed falling edge of `b` (R92). -/
abbrev NoArmedEdge (b : Button) (s : State) : Prop :=
  Next s (.pin b false) → lineBit s.level b = false ∨ s.status.init = false

theorem step_keeps_not_latched {s t : State} {b : Button} (h : step s = .next t) (hs : lineBit s.latch b = false)
    (hedge : NoArmedEdge b s) : lineBit t.latch b = false := by
  by_contra hset
  obtain ⟨hnext, hlevel, hinit⟩ := latchSetOnlyByArmedEdge s t b h hs (Bool.eq_true_of_not_eq_false hset)
  rcases hedge hnext with hlow | hunarmed
  · exact Bool.false_ne_true (hlow.symm.trans hlevel)
  · exact Bool.false_ne_true (hunarmed.symm.trans hinit)

theorem run_succ_of_step {s u : State} (h : step s = .next u) (k : Nat) :
    Host.Core.run core (k + 1) s = Host.Core.run core k u := by
  have hstep : core.step s = .next u := h
  simp only [Host.Core.run, hstep]

theorem run_keeps_not_latched {b : Button} (k : Nat) {s t : State} (hs : lineBit s.latch b = false)
    (hedge : ∀ j u, j < k → Host.Core.run core j s = .next u → NoArmedEdge b u)
    (h : Host.Core.run core k s = .next t) : lineBit t.latch b = false := by
  induction k generalizing s with
  | zero => cases h; exact hs
  | succ k ih =>
    obtain ⟨v, hstep, hrun⟩ := run_succ_inv h
    refine ih (step_keeps_not_latched hstep hs (hedge 0 s k.succ_pos rfl)) (fun j u hj hu => ?_) hrun
    exact hedge (j + 1) u (Nat.succ_lt_succ hj) (by rwa [run_succ_of_step hstep])

/-- Settles O54: by induction on the number of steps, none of which is an armed edge, so that none sets the latch. -/
theorem noReportWithoutEdge : Obligations.NoReportWithoutEdge := by
  intro k s t b hs hedge h
  have ht : lineBit t.latch b = false := run_keeps_not_latched k hs hedge h
  exact ⟨ht, by rw [← pressed_of_not_latched ht]; exact exec_iff.2 (.pressed b)⟩

/-! The button commands. A bit of LATCH or LEVEL by its number is the bit of a button (30_encoding.md R53). -/

theorem buttonIndex_inj {b c : Button} : buttonIndex b = buttonIndex c ↔ b = c := by
  cases b <;> cases c <;> decide

theorem exists_buttonIndex {k : Nat} (h : k < 5) : ∃ b, buttonIndex b = k := by
  match k, h with
  | 0, _ => exact ⟨.btnA, rfl⟩
  | 1, _ => exact ⟨.btnB, rfl⟩
  | 2, _ => exact ⟨.btnX, rfl⟩
  | 3, _ => exact ⟨.btnY, rfl⟩
  | 4, _ => exact ⟨.btnStart, rfl⟩

/-- The five rows of a button command, one for each button, with the number of the button's bit. -/
theorem exists_button_of_mem_rows {f : Button → Instr} {i : Instr} {k : Nat}
    (h : (i, k) ∈ [(f .btnA, 0), (f .btnB, 1), (f .btnX, 2), (f .btnY, 3), (f .btnStart, 4)]) :
    ∃ b, i = f b ∧ k = buttonIndex b := by
  simp only [List.mem_cons, Prod.mk.injEq, List.not_mem_nil, or_false] at h
  rcases h with h | h | h | h | h
  · exact ⟨.btnA, h⟩
  · exact ⟨.btnB, h⟩
  · exact ⟨.btnX, h⟩
  · exact ⟨.btnY, h⟩
  · exact ⟨.btnStart, h⟩

/-- Settles O16: the latch is the old one with the button's bit written 0. -/
theorem pressedConsumesLatch : Obligations.PressedConsumesLatch := by
  intro s i k hrow
  obtain ⟨b, rfl, rfl⟩ := exists_button_of_mem_rows (f := .pressed) hrow
  refine ⟨setLine s.latch b false, exec_iff.2 (.pressed b), fun j hj => ?_⟩
  obtain ⟨c, rfl⟩ := exists_buttonIndex hj
  change lineBit (setLine s.latch b false) c = (lineBit s.latch c && _)
  by_cases hbc : b = c
  · simp [hbc]
  · have hindex : buttonIndex c ≠ buttonIndex b := fun h => hbc (buttonIndex_inj.1 h).symm
    simp [hbc, hindex]

/-- Settles O17: HELD b is a rule of `exec` on the row of its button, and its bit of LEVEL is the one R53 numbers. -/
theorem heldAnswersInvertedLevel : Obligations.HeldAnswersInvertedLevel := by
  intro s i k hrow
  obtain ⟨b, rfl, rfl⟩ := exists_button_of_mem_rows (f := .held) hrow
  exact exec_iff.2 (.held b)

/-- Settles O18: RESETALL is a rule of `exec` of its own. -/
theorem resetallClearsLatches : Obligations.ResetallClearsLatches := fun _ => exec_iff.2 .resetall

/-! PIN. -/

@[simp] theorem pinStep_pending (b : Button) (l : Bool) (s : State) : (pinStep b l s).pending = s.pending := by
  rw [pinStep_eq]

@[simp] theorem pinStep_resBit (b : Button) (l : Bool) (s : State) : (pinStep b l s).resBit = s.resBit := by
  rw [pinStep_eq]

@[simp] theorem lineBit_pinStep_level (b c : Button) (l : Bool) (s : State) :
    lineBit (pinStep b l s).level c = if c = b then l else lineBit s.level c := by
  simp [pinStep_eq, eq_comm (a := b) (b := c)]

/-- The bits of LATCH after PIN: an armed falling edge sets its button's (R92). -/
@[simp] theorem lineBit_pinStep_latch (b c : Button) (l : Bool) (s : State) :
    lineBit (pinStep b l s).latch c =
      if c = b ∧ lineBit s.level b = true ∧ l = false ∧ s.status.init = true then true else lineBit s.latch c := by
  rw [pinStep_eq]
  by_cases harmed : lineBit s.level b = true ∧ l = false ∧ s.status.init = true
  · obtain ⟨hlevel, hfall, hinit⟩ := harmed
    simp [hlevel, hfall, hinit, eq_comm (a := b) (b := c)]
  · have hoff : (lineBit s.level b && !l && s.status.init) = false := by
      simpa [and_assoc] using harmed
    simp [hoff, harmed]

/-- Settles O34: PIN is one record update of LEVEL and LATCH, given bit by bit above. -/
theorem pinSetsLevelAndArmedEdge : Obligations.PinSetsLevelAndArmedEdge := by
  intro s b l rest hp
  refine ⟨(pinStep b l s).level, (pinStep b l s).latch, ?_, fun c =>
    ⟨lineBit_pinStep_level b c l s, lineBit_pinStep_latch b c l s⟩⟩
  rw [step_of_pending_cons hp]
  simp only [perform, pinStep_eq]

/-! A command and a falling edge in one clock cycle. -/

/-- The two steps of the cycle: the command, and the edge on what the command leaves (R99). -/
theorem run_command_then_edge {s v : State} {i : Instr} {b : Button} {rest : List Event}
    (hp : s.pending = command s.base i :: .pin b false :: rest)
    (hv : exec i { s with pending := .pin b false :: rest } = .next v) :
    Host.Core.run core 2 s = .next (pinStep b false { v.respond .okay with pending := rest }) := by
  have hcommand : step s = .next (v.respond .okay) := by
    rw [step_of_pending_command (decode_encode i) hp, hv]
    rfl
  obtain ⟨-, -, -, -, hpending, -⟩ := exec_keeps_environment hv
  have hedge : step (v.respond .okay) = .next (pinStep b false { v.respond .okay with pending := rest }) :=
    step_of_pending_cons (s := v.respond .okay) hpending
  rw [run_succ_of_step hcommand, run_succ_of_step hedge]
  rfl

theorem pressed_ne_clearsAll (b : Button) : Instr.pressed b ≠ .resetall ∧ Instr.pressed b ≠ .init := by
  cases b <;> decide

/-- The other latches after a command that clears LATCH[b]: as they were after PRESSED b (R95), else 0 (R97, R103). -/
theorem ExecRule.other_latch_of_clear {s t : State} {i : Instr} {b c : Button} (h : ExecRule s i t)
    (hi : i ∈ [Instr.pressed b, .resetall, .init]) (hcb : c ≠ b) :
    lineBit t.latch c = if i = .pressed b then lineBit s.latch c else false := by
  obtain ⟨hresetall, hinit⟩ := pressed_ne_clearsAll b
  rw [Bool.eq_iff_iff, h.latch_iff]
  simp only [List.mem_cons, List.not_mem_nil, or_false] at hi
  rcases hi with rfl | rfl | rfl
  · simp [pressed_inj, hcb.symm, hresetall, hinit]
  · simp [hresetall.symm]
  · simp [hinit.symm]

/-- Settles O38: the command neither changes LEVEL nor takes STATUS.INIT away, so that the edge is armed after it. -/
theorem edgeWinsOverClear : Obligations.EdgeWinsOverClear := by
  intro s b i rest hi harmed hlevel hp
  obtain ⟨v, hv⟩ := exec_completes i { s with pending := .pin b false :: rest }
  have hrule := exec_iff.1 hv
  have hinit : v.status.init = true := hrule.init_iff.2 harmed
  obtain ⟨hkept, -⟩ := exec_keeps_environment hv
  have hfalling : lineBit v.level b = true := by rw [hkept]; exact hlevel
  have hcycle : s.pending = command s.base i :: .pin b false :: rest := hp
  refine ⟨_, run_command_then_edge hcycle hv, pinStep_pending .., fun hpressed => ?_, fun c => ?_⟩
  · subst hpressed
    have hv' := Host.Outcome.next.inj (hv.symm.trans (exec_iff.2 (.pressed b)))
    rw [pinStep_resBit, hv']
    rfl
  · by_cases hcb : c = b
    · simp [hcb, hfalling, hinit]
    · simpa [hcb] using hrule.other_latch_of_clear hi hcb

end Sys2Proof.Proofs
end

section
/-! The control commands NOP, INIT and CLRERR (42_control.md R102, R103, R106), and the write of an illegal word to CMD
(R107). -/

namespace Sys2Proof.Proofs

open Sys2Proof.Machine Sys2Proof.Laws

theorem executeWord_of_illegal {w : Word} {why : Illegal} (h : decode w = .illegal why) (s : State) :
    executeWord w s = .next (s.setFlag .illegal) := by
  rw [executeWord, h, abandon_spec]

/-- Settles O6: the write is a word access to CMD, whatever its word, and an illegal word abandons with the flag. -/
theorem illegalWordSetsFlagOnly : Obligations.IllegalWordSetsFlagOnly := by
  intro s w why rest hp hw
  calc step s = hostWrite 4 s.base w { s with pending := rest } := step_of_pending_cons hp
    _ = withOkay (executeWord w { s with pending := rest }) := hostWrite_cmd w { s with pending := rest }
    _ = withOkay (.next (State.setFlag .illegal { s with pending := rest })) := by rw [executeWord_of_illegal hw]

/-- Settles O12: NOP is a rule of `exec` of its own. -/
theorem nopChangesNothing : Obligations.NopChangesNothing := fun _ => exec_iff.2 .nop

/-- A saturated sample as the register that INIT writes it to (R63, R103). -/
theorem ofNat_min_eq_saturate (a : Sample) : BitVec.ofNat 17 (min a.toNat 0x10000) = saturate a := by
  rw [← saturate_toNat, BitVec.ofNat_toNat, BitVec.setWidth_eq]

/-- Settles O13: the captured origin is the saturated sample, whose SAT is the one of `afterSample`. -/
theorem initCapturesOrigin : Obligations.InitCapturesOrigin := by
  intro s
  rw [ofNat_min_eq_saturate, ofNat_min_eq_saturate, Bool.or_assoc]
  exact exec_iff.2 .init

/-- Settles O14: CLRERR is a rule of `exec` of its own. -/
theorem clrerrClearsStickyFlags : Obligations.ClrerrClearsStickyFlags := fun _ => exec_iff.2 .clrerr

end Sys2Proof.Proofs
end

section
/-! The state after reset (70_reset_and_hazards.md R125, R127) and the two invariants. -/

namespace Sys2Proof.Proofs

open Sys2Proof.Machine Sys2Proof.Safety

/-- R125, R127: every latch, register and flag of the rule is at its reset value. -/
theorem untouchedBeforeInit_reset : UntouchedBeforeInit State.reset :=
  fun _ => ⟨rfl, rfl, rfl, rfl, rfl, rfl, rfl, rfl, rfl, rfl⟩

/-- Settles O53: at reset the coordinates, the magnitude, the angle, the sector and the origin are all 0, a value that
is in each range (R23, R72, R73). -/
theorem resetStateIsLegal : Obligations.ResetStateIsLegal := ⟨inRange_reset, untouchedBeforeInit_reset⟩

end Sys2Proof.Proofs
end

section
/-! The agents' other steps: an access outside the window (20_memory.md R37), ANALOG (10_state.md R28) and RESET
(70_reset_and_hazards.md R125, R126), also as the last step of a clock cycle (60_exceptions.md R117). -/

namespace Sys2Proof.Proofs

open Sys2Proof.Machine Sys2Proof.Safety Sys2Proof.Laws

/-! Accesses that are not addressed to the block. -/

theorem hostRead_outside {s : State} {bytes addr : Nat} (h : ¬s.inWindow addr = true) :
    hostRead bytes addr s = .next (s.respond .noResponse) := by
  rw [hostRead, if_neg h]

theorem hostWrite_outside {s : State} {bytes addr : Nat} {data : Word} (h : ¬s.inWindow addr = true) :
    hostWrite bytes addr data s = .next (s.respond .noResponse) := by
  rw [hostWrite, if_neg h]

/-- Settles O10: neither a read nor a write looks further than the window. -/
theorem outsideWindowUnanswered : Obligations.OutsideWindowUnanswered := by
  intro s bytes addr data rest houtside hp
  have hwindow : ¬State.inWindow { s with pending := rest } addr = true := by
    rw [inWindow_iff]
    change ¬(s.base ≤ addr ∧ addr < s.base + 64)
    omega
  rcases hp with hread | hwrite
  · rw [step_of_pending_cons hread]
    exact hostRead_outside hwindow
  · rw [step_of_pending_cons hwrite]
    exact hostWrite_outside hwindow

/-! ANALOG and RESET as one step. -/

/-- Settles O37: the step is `analogStep` on the state without its event. -/
theorem analogSetsPorts : Obligations.AnalogSetsPorts := fun _ _ _ _ hp => step_of_pending_cons hp

theorem step_of_pending_reset {s : State} {btnIn : Lines} {rest : List Event} (hp : s.pending = .reset btnIn :: rest) :
    step s = .next (resetStep btnIn { s with pending := rest }) :=
  step_of_pending_cons hp

/-- Settles O35: RESET takes every register and latch from `State.reset`, whose values are those of R15, R25, R125. -/
theorem resetClearsEverything : Obligations.ResetClearsEverything := fun _ _ _ hp => step_of_pending_reset hp

/-! RESET as the last step of a cycle. -/

/-- Only ANALOG changes what the ports present (R28). -/
theorem step_keeps_ports {s t : State} (h : step s = .next t) (hnext : ∀ p q, ¬Next s (.analog p q)) :
    t.ainH = s.ainH ∧ t.ainV = s.ainV := by
  rcases step_cases h with ⟨-, rfl⟩ | ⟨e, rest, hp, u, rfl, hcases⟩
  · exact ⟨rfl, rfl⟩
  · rcases hcases with ⟨a, r, -, rfl⟩ | ⟨i, w, v, -, -, hexec, rfl⟩ | ⟨why, w, -, -, rfl⟩ | ⟨b, l, -, rfl⟩ |
      ⟨p, q, rfl, -⟩ | ⟨btnIn, -, rfl⟩
    · exact ⟨rfl, rfl⟩
    · obtain ⟨-, hainH, hainV, -⟩ := exec_keeps_environment hexec
      exact ⟨hainH, hainV⟩
    · exact ⟨rfl, rfl⟩
    · rw [pinStep_eq]; exact ⟨rfl, rfl⟩
    · exact absurd (by rw [Next, hp, List.head?_cons]) (hnext p q)
    · exact ⟨rfl, rfl⟩

/-- What RESET keeps is the ports and BASE: it makes the same of two states that agree on them. -/
theorem resetStep_congr {s t : State} (btnIn : Lines) (rest : List Event) (hainH : t.ainH = s.ainH)
    (hainV : t.ainV = s.ainV) (hbase : t.base = s.base) :
    resetStep btnIn { t with pending := rest } = resetStep btnIn { s with pending := rest } := by
  have hpage : t.basePage = s.basePage := Nat.eq_of_mul_eq_mul_left (by decide : 0 < Config.windowBytes) hbase
  simp only [resetStep, hainH, hainV, hpage]

/-- Whatever steps but ANALOG come before it, RESET makes of the state what it would make of it without them. -/
theorem run_then_reset {s : State} {btnIn : Lines} {rest : List Event} (es : List Event)
    (hes : ∀ e ∈ es, ∀ p q, e ≠ .analog p q) (hp : s.pending = es ++ .reset btnIn :: rest) :
    Host.Core.run core (es.length + 1) s = .next (resetStep btnIn { s with pending := rest }) := by
  induction es generalizing s with
  | nil => exact run_succ_of_step (step_of_pending_reset hp) 0
  | cons e es ih =>
    obtain ⟨he, hes⟩ := List.forall_mem_cons.1 hes
    obtain ⟨u, hstep⟩ := everyStepCompletes s
    obtain ⟨hpending, hbase⟩ := step_pending_base hstep
    obtain ⟨hainH, hainV⟩ := step_keeps_ports hstep fun p q hnext => by
      rw [Next, hp, List.cons_append, List.head?_cons] at hnext
      exact he p q (Option.some.inj hnext)
    rw [hp, List.cons_append, List.tail_cons] at hpending
    calc Host.Core.run core ((e :: es).length + 1) s
        = Host.Core.run core (es.length + 1) u := run_succ_of_step hstep _
      _ = .next (resetStep btnIn { u with pending := rest }) := ih hes hpending
      _ = .next (resetStep btnIn { s with pending := rest }) := by rw [resetStep_congr btnIn rest hainH hainV hbase]

/-- RESET is last in its cycle (R117), after the host access and the pin changes. -/
theorem cycle_steps_of_reset {c : Cycle} {btnIn : Lines} (h : c.reset = some btnIn) :
    ∃ es, c.steps = es ++ [.reset btnIn] ∧ ∀ e ∈ es, ∀ p q, e ≠ .analog p q := by
  refine ⟨(c.host.map Event.host).toList ++ c.pins.map (fun p => .pin p.1 p.2), by rw [Cycle.steps, h]; rfl, ?_⟩
  intro e he p q
  rcases List.mem_append.1 he with hhost | hpin
  · obtain ⟨a, -, rfl⟩ := Option.map_eq_some_iff.1 (Option.mem_toList.1 hhost)
    exact Event.noConfusion
  · obtain ⟨pin, -, rfl⟩ := List.mem_map.1 hpin
    exact Event.noConfusion

/-- Settles O39: the steps before RESET change neither the ports nor BASE, all that RESET keeps of the state. -/
theorem resetWinsItsCycle : Obligations.ResetWinsItsCycle := by
  intro s c btnIn rest hreset hp
  obtain ⟨es, hsteps, hes⟩ := cycle_steps_of_reset hreset
  rw [hsteps, List.append_assoc] at hp
  rw [hsteps, List.length_append]
  exact run_then_reset es hes hp

end Sys2Proof.Proofs
end
